-- ==== Sys2Proof/Word.lean ====
section
/-! DEFINITION. The word types of the block: its 32-bit register word, the 8-bit input and checksum byte, the 32-bit
opaque word token (spec R9, R12, R75). -/

namespace Sys2Proof

/-- An input byte, an accumulator value, a checksum byte (R12). -/
abbrev Byte := BitVec 8

/-- The contents of a register, as the bus moves it (R75). -/
abbrev Word := BitVec 32

/-- One entry of the word table: opaque to the block (R9). -/
abbrev Token := BitVec 32

end Sys2Proof
end

