-- ==== Sys2Proof/Syntax.lean ====
section
/-! DEFINITION. The syntax: the twelve commands (spec R103), the registers of the window (10_state.md section 2), bus
accesses (R71), the host's statements (R107, R108) and the assembler's commands (R106). -/

namespace Sys2Proof

/-- The commands, one constructor per row of the opcode table (R103). `imm8` is OPERAND[7:0], used unchanged (R102). -/
inductive Instr
  | nop
  | clrin
  | pushb (imm8 : Byte)
  | pushhex (imm8 : Byte)
  | compress
  | humanize
  | lookup (imm8 : Byte)
  | tblBegin
  | tblWrite
  | tblEnd
  | tblDefault
  | clrerr
  deriving DecidableEq, Repr

/-- One command as the assembler reads it: operands not yet checked against their range (R106). -/
inductive AsmCommand
  | nop | clrin | compress | humanize | tblBegin | tblWrite | tblEnd | tblDefault | clrerr
  | pushb (byte : Nat)
  | pushhexChar (c : Char)
  | pushhexCode (code : Nat)
  | lookup (index : Nat)
  deriving DecidableEq, Repr

/-- The registers of the 64-byte window; `reserved k` is offset 0x30 + 4k (10_state.md section 2, R46). -/
inductive Reg
  | cap | cmd | status | inCount | target | tblCount | data | outCount
  | outIndex | outCk | outWord | lkResult
  | reserved (k : Fin 4)
  deriving DecidableEq, Repr

/-- The width of a bus access (R72 names 8, 16 and 32 bits). -/
inductive BusWidth
  | w8 | w16 | w32
  deriving DecidableEq, Repr

/-- What a bus access does. -/
inductive BusOp
  | read
  | write (v : Word)
  deriving DecidableEq, Repr

/-- A host access as it stands on the bus: any width, any address (R71, R72). -/
structure Access where
  width : BusWidth
  addr  : Nat
  op    : BusOp
  deriving DecidableEq, Repr

/-- One statement of a host program. `wr`, `rd` and `wait` are R107's; `cmd c` is `wr cmd (encode c)`. `bus` is an
access by address (R71), `reset` the reset input, asserted and released (R240). -/
inductive HostStmt
  | wr (r : Reg) (v : Word)
  | rd (r : Reg)
  | wait
  | bus (a : Access)
  | reset
  deriving DecidableEq, Repr

/-- The pseudo-instructions of R108, operands not yet checked. -/
inductive HostMacro
  | hex (s : List Char)
  | bytes (bs : List Nat)
  | sett (n : Nat)
  | loadtbl (ts : List Token)
  | rdout (i : Nat)
  deriving DecidableEq, Repr

end Sys2Proof
end

