-- ==== Sys2Proof/WellFormed.lean ====
section
/-! DEFINITION. Which terms of the syntax the spec admits. Every `Instr` is well formed by its types: R101 and R102 leave
a form-B operand eight bits and a form-Z command none. What can be ill formed is what a programmer writes: an assembler
command whose operand lies outside 0..255 (R106), a pseudo-instruction with such an operand or a word list that is not
256 tokens long (R108). -/

namespace Sys2Proof

/-- R106: an operand outside 0..255 is an assembly error. -/
def operandInRange (n : Nat) : Bool := decide (n ≤ 255)

/-- R144: the code of a character is its ASCII code, so the character must have one (log entry 11). -/
def asciiChar (c : Char) : Bool := decide (c.toNat < 128)

/-- A register write carries 32 bits (R75). -/
def fitsRegister (n : Nat) : Bool := decide (n < 2 ^ 32)

/-- R106. -/
def AsmCommand.wellFormed : AsmCommand → Bool
  | .nop | .clrin | .compress | .humanize | .tblBegin | .tblWrite | .tblEnd | .tblDefault | .clrerr => true
  | .pushb b => operandInRange b
  | .pushhexChar c => asciiChar c
  | .pushhexCode c => operandInRange c
  | .lookup i => operandInRange i

/-- R108: LOADTBL takes the 256 tokens t0 .. t255. -/
def HostMacro.wellFormed : HostMacro → Bool
  | .hex s => s.all asciiChar
  | .bytes bs => bs.all operandInRange
  | .sett n => fitsRegister n
  | .loadtbl ts => decide (ts.length = 256)
  | .rdout i => fitsRegister i

end Sys2Proof
end

