-- ==== Sys2Proof/Decode.lean ====
section
/-! DEFINITION. Decoding a command word (spec R100 to R105), the encoder written from the same tables, the opcode table's
rows (R103) and the assembler (R106). -/

namespace Sys2Proof

/-- Why a word is an illegal command: the three cases of R104. `tooShort` is for a byte list that holds no whole word. -/
inductive DecodeReject
  | unassignedOpcode (op : Byte)
  | operandNotZero (op : Byte)
  | operandHighNotZero (op : Byte)
  | tooShort
  deriving DecidableEq, Repr

/-- A field's bits put at bit `lo` of a word, zero-extended (R81: no value is sign-extended). -/
def bitsAt {w : Nat} (lo : Nat) (v : BitVec w) : Word := v.setWidth 32 <<< lo

/-- OP, bits 31:24 (R100). -/
def opField (w : Word) : Byte := w.extractLsb' 24 8

/-- OPERAND, bits 23:0 (R100). -/
def operandField (w : Word) : BitVec 24 := w.extractLsb' 0 24

/-- imm8 = OPERAND[7:0] (R101). -/
def imm8Field (w : Word) : Byte := w.extractLsb' 0 8

/-- OPERAND[23:8], which form B wants zero (R101). -/
def operandHighField (w : Word) : BitVec 16 := w.extractLsb' 8 16

/-- Form Z: no operand, OPERAND[23:0] must be 0 (R101, R104 b). -/
def formZ (w : Word) (i : Instr) : Except DecodeReject Instr :=
  if operandField w = 0 then .ok i else .error (.operandNotZero (opField w))

/-- Form B: an 8-bit operand, OPERAND[23:8] must be 0 (R101, R104 c). -/
def formB (w : Word) (f : Byte → Instr) : Except DecodeReject Instr :=
  if operandHighField w = 0 then .ok (f (imm8Field w)) else .error (.operandHighNotZero (opField w))

/-- The decoder: it reads OP and then checks OPERAND against that opcode's form (R100, R103). Total: every word is one of
the twelve commands or illegal by name (R105). -/
def decode (w : Word) : Except DecodeReject Instr :=
  match (opField w).toNat with
  | 0x00 => formZ w .nop
  | 0x01 => formZ w .clrin
  | 0x02 => formB w .pushb
  | 0x03 => formB w .pushhex
  | 0x04 => formZ w .compress
  | 0x05 => formZ w .humanize
  | 0x06 => formB w .lookup
  | 0x08 => formZ w .tblBegin
  | 0x09 => formZ w .tblWrite
  | 0x0A => formZ w .tblEnd
  | 0x0B => formZ w .tblDefault
  | 0x0F => formZ w .clrerr
  | _ => .error (.unassignedOpcode (opField w))

/-- The word carried by four byte lanes, lane k holding bits 8k+7 .. 8k (R73). -/
def wordOfLanes (b0 b1 b2 b3 : Byte) : Word :=
  bitsAt 24 b3 ||| bitsAt 16 b2 ||| bitsAt 8 b1 ||| bitsAt 0 b0

/-- The four byte lanes of a word, lowest address first (R73). -/
def lanesOfWord (w : Word) : List Byte :=
  [w.extractLsb' 0 8, w.extractLsb' 8 8, w.extractLsb' 16 8, w.extractLsb' 24 8]

/-- Decoding the first word of a list of bytes in lane order, with the bytes after it. -/
def decodeBytes : List Byte → Except DecodeReject (Instr × List Byte)
  | b0 :: b1 :: b2 :: b3 :: rest => (decode (wordOfLanes b0 b1 b2 b3)).map fun i => (i, rest)
  | _ => .error .tooShort

/-- OP of each command (R103). -/
def Instr.op : Instr → Byte
  | .nop => 0x00
  | .clrin => 0x01
  | .pushb _ => 0x02
  | .pushhex _ => 0x03
  | .compress => 0x04
  | .humanize => 0x05
  | .lookup _ => 0x06
  | .tblBegin => 0x08
  | .tblWrite => 0x09
  | .tblEnd => 0x0A
  | .tblDefault => 0x0B
  | .clrerr => 0x0F

/-- The operand byte of each command: imm8 in form B, zero in form Z (R101). -/
def Instr.operandByte : Instr → Byte
  | .pushb b | .pushhex b | .lookup b => b
  | .nop | .clrin | .compress | .humanize | .tblBegin | .tblWrite | .tblEnd | .tblDefault | .clrerr => 0

/-- The encoder: (OP << 24) | imm8 (R106). -/
def encode (i : Instr) : Word := bitsAt 24 i.op ||| bitsAt 0 i.operandByte

/-- The two operand forms (R101). -/
inductive OperandForm
  | formZ
  | formB
  deriving DecidableEq, Repr

/-- One row of the opcode table (R103). -/
structure OpcodeRow where
  mnemonic : String
  form     : OperandForm
  pattern  : Word
  mask     : Word
  deriving DecidableEq, Repr

/-- The opcode table as R103 prints it: mnemonic, form, match, mask. -/
def opcodeRows : List OpcodeRow :=
  [⟨"NOP", .formZ, 0x00000000, 0xFFFFFFFF⟩, ⟨"CLRIN", .formZ, 0x01000000, 0xFFFFFFFF⟩,
   ⟨"PUSHB", .formB, 0x02000000, 0xFFFFFF00⟩, ⟨"PUSHHEX", .formB, 0x03000000, 0xFFFFFF00⟩,
   ⟨"COMPRESS", .formZ, 0x04000000, 0xFFFFFFFF⟩, ⟨"HUMANIZE", .formZ, 0x05000000, 0xFFFFFFFF⟩,
   ⟨"LOOKUP", .formB, 0x06000000, 0xFFFFFF00⟩, ⟨"TBL_BEGIN", .formZ, 0x08000000, 0xFFFFFFFF⟩,
   ⟨"TBL_WRITE", .formZ, 0x09000000, 0xFFFFFFFF⟩, ⟨"TBL_END", .formZ, 0x0A000000, 0xFFFFFFFF⟩,
   ⟨"TBL_DEFAULT", .formZ, 0x0B000000, 0xFFFFFFFF⟩, ⟨"CLRERR", .formZ, 0x0F000000, 0xFFFFFFFF⟩]

/-- The mnemonic of each command, as R103 spells it. -/
def Instr.mnemonic : Instr → String
  | .nop => "NOP"
  | .clrin => "CLRIN"
  | .pushb _ => "PUSHB"
  | .pushhex _ => "PUSHHEX"
  | .compress => "COMPRESS"
  | .humanize => "HUMANIZE"
  | .lookup _ => "LOOKUP"
  | .tblBegin => "TBL_BEGIN"
  | .tblWrite => "TBL_WRITE"
  | .tblEnd => "TBL_END"
  | .tblDefault => "TBL_DEFAULT"
  | .clrerr => "CLRERR"

/-- A word selects a row when (w AND mask) = match (R103). -/
def OpcodeRow.selects (r : OpcodeRow) (w : Word) : Bool := (w &&& r.mask) == r.pattern

/-- The instruction the decoder reads from a table word whose bits above `nbits` are zero, laid out in byte lanes. -/
def decodeTableWord (nbits w : Nat) : Option Instr :=
  match decodeBytes (lanesOfWord (BitVec.ofNat 32 (w % 2 ^ nbits))) with
  | .ok (i, _) => some i
  | .error _ => none

/-! ### The assembler (R106) -/

/-- An 8-bit code from a number in range. -/
def byteOperand? (n : Nat) : Option Byte := if operandInRange n then some (BitVec.ofNat 8 n) else none

/-- The code of a character: its ASCII code (R144; log entry 11). -/
def charCode? (c : Char) : Option Byte := if asciiChar c then some (BitVec.ofNat 8 c.toNat) else none

/-- The command an assembler command stands for; an operand out of range is an assembly error (R106). -/
def AsmCommand.toInstr? : AsmCommand → Option Instr
  | .nop => some .nop
  | .clrin => some .clrin
  | .compress => some .compress
  | .humanize => some .humanize
  | .tblBegin => some .tblBegin
  | .tblWrite => some .tblWrite
  | .tblEnd => some .tblEnd
  | .tblDefault => some .tblDefault
  | .clrerr => some .clrerr
  | .pushb b => (byteOperand? b).map .pushb
  | .pushhexChar c => (charCode? c).map .pushhex
  | .pushhexCode c => (byteOperand? c).map .pushhex
  | .lookup i => (byteOperand? i).map .lookup

/-- The word the assembler emits, (OP << 24) | imm8 (R106). -/
def assemble (c : AsmCommand) : Option Word := c.toInstr?.map encode

/-- The value of a digit character in the given base (10 or 16). -/
def digitValue? (radix : Nat) (c : Char) : Option Nat :=
  let n := c.toNat
  let v := if 0x30 ≤ n ∧ n ≤ 0x39 then n - 0x30
           else if 0x41 ≤ n ∧ n ≤ 0x46 then n - 0x37
           else if 0x61 ≤ n ∧ n ≤ 0x66 then n - 0x57
           else 16
  if v < radix then some v else none

/-- Reading digits left to right onto an accumulator. -/
def readDigits (radix : Nat) : Nat → List Char → Option Nat
  | acc, [] => some acc
  | acc, c :: cs =>
    match digitValue? radix c with
    | some v => readDigits radix (radix * acc + v) cs
    | none => none

/-- A number in an assembler line: decimal, or hexadecimal after 0x (R106). -/
def readNumber : List Char → Option Nat
  | [] => none
  | '0' :: 'x' :: [] => none
  | '0' :: 'x' :: d :: ds => readDigits 16 0 (d :: ds)
  | d :: ds => readDigits 10 0 (d :: ds)

/-- An assembler line, cut at blanks into its mnemonic and at most one operand (R106; log entry 11). -/
def parseAsm : List String → Option AsmCommand
  | [m] =>
    match m with
    | "NOP" => some .nop
    | "CLRIN" => some .clrin
    | "COMPRESS" => some .compress
    | "HUMANIZE" => some .humanize
    | "TBL_BEGIN" => some .tblBegin
    | "TBL_WRITE" => some .tblWrite
    | "TBL_END" => some .tblEnd
    | "TBL_DEFAULT" => some .tblDefault
    | "CLRERR" => some .clrerr
    | _ => none
  | [m, x] =>
    match m with
    | "PUSHB" => (readNumber x.toList).map .pushb
    | "PUSHHEX" =>
      match x.toList with
      | ['\'', c, '\''] => some (.pushhexChar c)
      | cs => (readNumber cs).map .pushhexCode
    | "LOOKUP" => (readNumber x.toList).map .lookup
    | _ => none
  | _ => none

/-- From a line of assembler text to the command word (R106). -/
def assembleLine (tokens : List String) : Option Word := (parseAsm tokens).bind assemble

end Sys2Proof
end

