-- ==== Sys2Proof/Config.lean ====
section
/-! DEFINITION. What the spec leaves open, as constants nothing can evaluate: the three parameters (R7, R10, R11) and the
free values (R49, R82). -/

namespace Sys2Proof

/-- Who makes the next move: the host (a bus access) or the engine (the pending command) (R20). -/
inductive Agent
  | host
  | engine
  deriving DecidableEq, Repr, Inhabited

/-- The implementation's MAX_N, less one: MAX_N is this plus one, so that 1 ≤ MAX_N ≤ 0xFFFFFF is built in (R7).
DESIGN CHOICE (log entry 1): an open constant. -/
opaque Config.maxNLessOne : Fin 0xFFFFFF

/-- MAX_N, the capacity of the input buffer in bytes (R7). -/
def Config.maxN : Nat := Config.maxNLessOne.val + 1

/-- DEFAULT_WORDLIST: exactly 256 tokens, nothing assumed of them (R10). Log entry 1. -/
opaque Config.defaultWordlist : Vector Token 256

/-- BASE divided by 64 (R11: BASE is a multiple of 64). Log entry 1. -/
opaque Config.baseIndex : Nat

/-- BASE, the bus address of register offset 0 (R11). -/
def Config.base : Nat := 64 * Config.baseIndex

/-- The value drawn by the k-th read that R49 leaves open while BUSY = 1. A free value (log entry 5). -/
opaque Config.busyRead : Nat → Word

/-- The number of host moves that come before the k-th engine turn while a command is pending and the state's `turns` says
nothing: the finite, unspecified delay of R250. A free value (log entry 4). -/
opaque Config.hostMovesBefore : Nat → Nat

end Sys2Proof
end

