-- ==== Sys2Proof/Machine/Params.lean ====
section
/-! DEFINITION. The parameters as the machine reads them (spec R7, R10, R11). -/

namespace Sys2Proof.Machine

/-- MAX_N, the number of entries of IN, CK and WD (R7). -/
def maxN : Nat := Config.maxN

/-- DEFAULT_WORDLIST (R10). -/
def defaultWordlist : Vector Token 256 := Config.defaultWordlist

/-- BASE, the bus address of register offset 0 (R11). -/
def base : Nat := Config.base

/-- The value the k-th read left open by R49 gives (log entry 5). -/
def busyDraw (k : Nat) : Word := Config.busyRead k

/-- How many host moves come before the k-th engine turn that `turns` leaves open: finite, whatever it is (R250; log
entry 4). -/
def hostMovesBefore (k : Nat) : Nat := Config.hostMovesBefore k

end Sys2Proof.Machine
end

