-- ==== Sys2Proof/Machine/State.lean ====
section
/-! DEFINITION. The state of the block (spec 10_state.md section 4), its reset value (R240), and how a step can stop. -/

namespace Sys2Proof.Machine

/-- The codes of STATUS.ERRCODE (R211). Codes 9 to 15 are never produced (log entry 12). -/
inductive ErrCode
  | success
  | invalidConfiguration
  | insufficientInput
  | invalidDigest
  | invalidTarget
  | notConfigured
  | inputOverflow
  | tableState
  | illegalCommand
  deriving DecidableEq, Repr

/-- STATUS.IN_FAULT (R33). Value 3 is never produced (log entry 12). -/
inductive InFault
  | none
  | badDigest
  | overflow
  deriving DecidableEq, Repr

/-- STATUS.OUT_KIND (R35): nothing valid, checksums only, checksums and words. Value 3 is never produced (log entry 12). -/
inductive OutKind
  | nothing
  | checksums
  | words
  deriving DecidableEq, Repr

/-- An array of MAX_N elements as plain data: the elements that are not 0, by rising index; an index not listed holds 0.
`Cells 8` is a list of `Host.Cell`. -/
abbrev Cells (w : Nat) := List (Nat × BitVec w)

/-- The block's state, field by field the record of 10_state.md section 4, and after it the block's environment: the
host's program, who moves next, what the host has read, and the counter of free values. -/
structure State where
  /-- PEND: the command accepted but not yet performed (R23). -/
  pend : Option Word
  /-- STATUS.ERRCODE (R29). -/
  errcode : ErrCode
  /-- STATUS.TBL_VALID (R30). -/
  tblValid : Bool
  /-- STATUS.TBL_LOADING (R31). -/
  tblLoading : Bool
  /-- STATUS.HEX_PEND (R32). -/
  hexPend : Bool
  /-- NIB (R51). -/
  nib : BitVec 4
  /-- STATUS.IN_FAULT (R33). -/
  inFault : InFault
  /-- STATUS.OVERRUN (R34). -/
  overrun : Bool
  /-- STATUS.OUT_KIND (R35). -/
  outKind : OutKind
  /-- N, read as IN_COUNT[23:0] (R37). -/
  inCount : Nat
  /-- T = TARGET[23:0] (R38). -/
  target : BitVec 24
  /-- COUNT, read as TBL_COUNT[8:0] (R39). -/
  count : Nat
  /-- EXCESS, read as TBL_COUNT[9] (R39). -/
  excess : Bool
  /-- DATA (R40). -/
  data : Word
  /-- OUT_COUNT[23:0] (R41). -/
  outCount : BitVec 24
  /-- OUT_INDEX[23:0] (R42). -/
  outIndex : BitVec 24
  /-- LK_RESULT (R45). -/
  lkResult : Token
  /-- IN (R50). -/
  inBuf : Cells 8
  /-- CK (R52). -/
  ck : Cells 8
  /-- WD (R53). -/
  wd : Cells 32
  /-- TBL (R54). -/
  tbl : Vector Token 256
  /-- The model's own: the host statements still to be performed, oldest first (R88, R107; log entry 3). -/
  program : List HostStmt
  /-- The model's own: who moves next, each time both agents can (R82; log entry 4). -/
  turns : List Agent
  /-- The model's own: how many host moves have gone before the engine turn now open (R250; log entry 4). -/
  waited : Nat
  /-- The model's own: how many engine turns that `turns` left open have come (R250; log entry 4). -/
  engineTurns : Nat
  /-- The model's own: what register reads gave back to the host, newest first (R88; log entry 3). -/
  replies : List Word
  /-- The model's own: how many values have been drawn by reads that R49 leaves open (log entry 5). -/
  draws : Nat
  deriving DecidableEq, Repr

/-- Why a step can stop. -/
inductive Fault
  /-- Raised by `step` when the host's next access is not admitted by R71 and no command is pending: R72 gives the host
  no step there, and the engine has none. Safe: the model stops where the spec defines no result (log entry 6). -/
  | accessNotAdmitted
  deriving DecidableEq, Repr

/-- Why an instruction can be refused. -/
inductive Refusal
  /-- Raised by an arm of `exec` whose instruction has no meaning yet; no arm of this model does so. Safe. -/
  | notModelled (mnemonic : String)
  deriving DecidableEq, Repr

/-- The state when reset is released (R240). NIB, IN, CK and WD are unspecified there and unobservable (R241).
DESIGN CHOICE (log entry 2): they hold 0. The model's own fields start empty (log entry 10). -/
def State.reset : State where
  pend := none
  errcode := .success
  tblValid := true
  tblLoading := false
  hexPend := false
  nib := 0
  inFault := .none
  overrun := false
  outKind := .nothing
  inCount := 0
  target := 4
  count := 256
  excess := false
  data := 0
  outCount := 0
  outIndex := 0
  lkResult := 0
  inBuf := []
  ck := []
  wd := []
  tbl := defaultWordlist
  program := []
  turns := []
  waited := 0
  engineTurns := 0
  replies := []
  draws := 0

end Sys2Proof.Machine
end

