-- ==== Sys2Proof/Machine/Ops.lean ====
section
/-! DEFINITION. The shared operations: the arrays IN, CK and WD, the word table, ending a command (spec 00_scope.md
section 5: `finish`, `raise`, `done`), and the append primitive (R141). -/

namespace Sys2Proof.Machine

/-! ### Arrays -/

/-- What an array element that is not listed holds. DESIGN CHOICE (log entry 2): 0, as after reset. -/
def unlisted (w : Nat) : BitVec w := 0

/-- Reading element `k`. -/
def Cells.get {w : Nat} : Cells w → Nat → BitVec w
  | [], _ => unlisted w
  | (j, v) :: c, k => if j = k then v else Cells.get c k

/-- An entry for element `k` in front of `c`, unless it says what an unlisted element holds anyway. -/
def Cells.put {w : Nat} (k : Nat) (v : BitVec w) (c : Cells w) : Cells w :=
  if v = unlisted w then c else (k, v) :: c

/-- Writing element `k`, keeping the canonical form. -/
def Cells.set {w : Nat} : Cells w → Nat → BitVec w → Cells w
  | [], k, v => Cells.put k v []
  | (j, u) :: c, k, v =>
    if k < j then Cells.put k v ((j, u) :: c)
    else if k = j then Cells.put k v c
    else (j, u) :: Cells.set c k v

/-- Writing the elements from `k` on, in order. -/
def Cells.setFrom {w : Nat} (c : Cells w) : Nat → List (BitVec w) → Cells w
  | _, [] => c
  | k, v :: vs => Cells.setFrom (Cells.set c k v) (k + 1) vs

/-- The canonical form: indices strictly rising from `lo` on, and no entry that says what an unlisted element holds. -/
def Cells.wfFrom {w : Nat} : Nat → Cells w → Bool
  | _, [] => true
  | lo, (j, v) :: c => decide (lo ≤ j) && decide (v ≠ unlisted w) && Cells.wfFrom (j + 1) c

/-- The canonical form of an array: equal contents are equal data. -/
def Cells.wf {w : Nat} (c : Cells w) : Bool := Cells.wfFrom 0 c

/-- Every listed element lies in `[0, n)`: an array of `n` elements has no others (R50, R52, R53). -/
def Cells.within {w : Nat} (n : Nat) (c : Cells w) : Bool := c.all fun p => decide (p.1 < n)

/-- `word(b) = TBL[b]`: direct indexing, every byte value has an entry (R180). -/
def word (s : State) (b : Byte) : Token := s.tbl[b.toNat]'b.isLt

/-! ### Ending a command -/

/-- `finish(code)`: the command ends with this result code and changes no other state (00_scope.md section 5). -/
def State.finish (e : ErrCode) (s : State) : State := { s with errcode := e }

/-- `done`: the command succeeded (R29, R211). -/
def State.done (s : State) : State := s.finish .success

/-- `raise e`: the command ends with the code of `e`. It does not trap: writes made before stay, nothing after is done
(R210, R214, R216). This is the whole of "taking an exception" on this block; there is no return (R217). -/
def State.raise (e : ErrCode) (s : State) : State := s.finish e

/-- The end of the engine step: PEND becomes empty, and so BUSY becomes 0 (R20, R27). -/
def State.retire (s : State) : State := { s with pend := none }

/-- STATUS.BUSY (R27). -/
def State.busy (s : State) : Bool := s.pend.isSome

/-- `append(b)` and the `done` that follows it in both its callers: the byte is stored at IN[N] while there is room,
else the input is marked overflowed and InputOverflow raised (R141). -/
def State.append (b : Byte) (s : State) : State :=
  if s.inCount < maxN then
    State.done { s with inBuf := Cells.set s.inBuf s.inCount b, inCount := s.inCount + 1 }
  else State.raise .inputOverflow { s with inFault := .overflow }

/-- Storing the result of Compress: CK[0..T), OUT_COUNT and OUT_KIND (R166, R183). -/
def State.storeChecksums (k : OutKind) (cs : List Byte) (s : State) : State :=
  { s with ck := Cells.setFrom s.ck 0 cs, outCount := s.target, outKind := k }

end Sys2Proof.Machine
end

