-- ==== Sys2Proof/Machine/Flags.lean ====
section
/-! DEFINITION. The status fields as bits, and the registers that pack them: STATUS (spec R26), TBL_COUNT (R39) and CAP
(R24). The block has no arithmetic flags (R55). -/

namespace Sys2Proof.Machine

/-- The 4-bit code of a result (R211). -/
def ErrCode.code : ErrCode → BitVec 4
  | .success => 0
  | .invalidConfiguration => 1
  | .insufficientInput => 2
  | .invalidDigest => 3
  | .invalidTarget => 4
  | .notConfigured => 5
  | .inputOverflow => 6
  | .tableState => 7
  | .illegalCommand => 8

/-- The 2-bit value of IN_FAULT (R33). -/
def InFault.code : InFault → BitVec 2
  | .none => 0
  | .badDigest => 1
  | .overflow => 2

/-- The 2-bit value of OUT_KIND (R35). -/
def OutKind.code : OutKind → BitVec 2
  | .nothing => 0
  | .checksums => 1
  | .words => 2

/-- STATUS.ERR, always `ERRCODE ≠ 0` (R28). -/
def State.err (s : State) : Bool := decide (s.errcode.code ≠ 0)

/-- STATUS, field by field at its bits (R26); the reserved bits 31:18, 15, 11 and 3:2 read 0 (R36). -/
def statusWord (s : State) : Word :=
  bitsAt 0 (BitVec.ofBool s.busy) ||| bitsAt 1 (BitVec.ofBool s.err) ||| bitsAt 4 s.errcode.code |||
  bitsAt 8 (BitVec.ofBool s.tblValid) ||| bitsAt 9 (BitVec.ofBool s.tblLoading) |||
  bitsAt 10 (BitVec.ofBool s.hexPend) ||| bitsAt 12 s.inFault.code ||| bitsAt 14 (BitVec.ofBool s.overrun) |||
  bitsAt 16 s.outKind.code

/-- The bits of STATUS that R49 leaves open while BUSY = 1: every field but BUSY and OVERRUN, no reserved bit. -/
def statusOpenMask : Word := 0x000337F2

/-- STATUS while BUSY = 1: BUSY and OVERRUN exact, the other fields as drawn, the reserved bits 0 (R36, R49; log
entry 5). -/
def statusWhileBusy (draw : Word) (s : State) : Word :=
  (draw &&& statusOpenMask) ||| bitsAt 14 (BitVec.ofBool s.overrun) ||| bitsAt 0 (BitVec.ofBool s.busy)

/-- TBL_COUNT: COUNT in bits 8:0, EXCESS in bit 9 (R39). -/
def tblCountWord (s : State) : Word := bitsAt 9 (BitVec.ofBool s.excess) ||| bitsAt 0 (BitVec.ofNat 9 s.count)

/-- CAP: MAX_N in bits 23:0, the interface revision 0x01 in bits 31:24 (R24). -/
def capWord : Word := bitsAt 24 0x01#8 ||| bitsAt 0 (BitVec.ofNat 24 maxN)

end Sys2Proof.Machine
end

