-- ==== Sys2Proof/Machine/Bus.lean ====
section
/-! DEFINITION. The register window: its address map, RegRead and RegWrite (spec 20_memory.md R70 to R81, 10_state.md
R24 to R49). -/

namespace Sys2Proof.Machine

/-- The register at an offset of the window (10_state.md section 2). -/
def regAt (off : Nat) : Option Reg :=
  match off with
  | 0x00 => some .cap
  | 0x04 => some .cmd
  | 0x08 => some .status
  | 0x0C => some .inCount
  | 0x10 => some .target
  | 0x14 => some .tblCount
  | 0x18 => some .data
  | 0x1C => some .outCount
  | 0x20 => some .outIndex
  | 0x24 => some .outCk
  | 0x28 => some .outWord
  | 0x2C => some .lkResult
  | 0x30 => some (.reserved 0)
  | 0x34 => some (.reserved 1)
  | 0x38 => some (.reserved 2)
  | 0x3C => some (.reserved 3)
  | _ => none

/-- The offset of a register (10_state.md section 2). -/
def regOffset : Reg → Nat
  | .cap => 0x00
  | .cmd => 0x04
  | .status => 0x08
  | .inCount => 0x0C
  | .target => 0x10
  | .tblCount => 0x14
  | .data => 0x18
  | .outCount => 0x1C
  | .outIndex => 0x20
  | .outCk => 0x24
  | .outWord => 0x28
  | .lkResult => 0x2C
  | .reserved k => 0x30 + 4 * k.val

/-- R71: 32 bits wide, inside the window, at a multiple of 4. -/
def admitted (a : Access) : Bool :=
  decide (a.width = .w32) && decide (base ≤ a.addr) && decide (a.addr < base + 64) && decide (a.addr % 4 = 0)

/-- Where an access goes: the register at offset a - BASE when it is admitted, nowhere otherwise (R71, R72). -/
def accessReg (a : Access) : Option Reg := if admitted a then regAt (a.addr - base) else none

/-- OUT_CK (R43). -/
def outCkWord (s : State) : Word :=
  if s.outKind ≠ .nothing ∧ s.outIndex.toNat < s.outCount.toNat then (Cells.get s.ck s.outIndex.toNat).setWidth 32
  else 0

/-- OUT_WORD (R44). -/
def outWordWord (s : State) : Word :=
  if s.outKind = .words ∧ s.outIndex.toNat < s.outCount.toNat then Cells.get s.wd s.outIndex.toNat else 0

/-- RegRead's value while BUSY = 0, and of the registers that stay exact while BUSY = 1 (R79; CMD reads 0, R25;
log entry 13). -/
def regValue (r : Reg) (s : State) : Word :=
  match r with
  | .cap => capWord
  | .cmd => 0
  | .status => statusWord s
  | .inCount => (BitVec.ofNat 24 s.inCount).setWidth 32
  | .target => s.target.setWidth 32
  | .tblCount => tblCountWord s
  | .data => s.data
  | .outCount => s.outCount.setWidth 32
  | .outIndex => s.outIndex.setWidth 32
  | .outCk => outCkWord s
  | .outWord => outWordWord s
  | .lkResult => s.lkResult
  | .reserved _ => 0

/-- The registers whose reads R49 leaves open, wholly or in part, while BUSY = 1. -/
def openWhileBusy : Reg → Bool
  | .status | .inCount | .tblCount | .outCount | .outCk | .outWord | .lkResult => true
  | .cap | .cmd | .target | .data | .outIndex | .reserved _ => false

/-- The value of a read that R49 leaves open: for STATUS every field but BUSY and OVERRUN is drawn, for the others all
32 bits (log entry 5). -/
def openValue (r : Reg) (draw : Word) (s : State) : Word :=
  match r with
  | .status => statusWhileBusy draw s
  | .cap | .cmd | .inCount | .target | .tblCount | .data | .outCount | .outIndex | .outCk | .outWord | .lkResult
  | .reserved _ => draw

/-- RegRead (R79, R49): the value, and the state with one more value drawn if one was. Nothing else changes (R76). -/
def regRead (r : Reg) (s : State) : Word × State :=
  if s.busy && openWhileBusy r then (openValue r (busyDraw s.draws) s, { s with draws := s.draws + 1 })
  else (regValue r s, s)

/-- A write discarded because BUSY = 1 (R25, R48). -/
def State.dropWrite (s : State) : State := { s with overrun := true }

/-- RegWrite (R80): CMD accepts a command (R25), TARGET, DATA and OUT_INDEX store (R38, R40, R42), each only while
BUSY = 0 (R48); a write anywhere else is ignored (R46, R47). -/
def regWrite (r : Reg) (v : Word) (s : State) : State :=
  match r with
  | .cmd => if s.busy then s.dropWrite else { s with pend := some v }
  | .target => if s.busy then s.dropWrite else { s with target := v.setWidth 24 }
  | .data => if s.busy then s.dropWrite else { s with data := v }
  | .outIndex => if s.busy then s.dropWrite else { s with outIndex := v.setWidth 24 }
  | .cap | .status | .inCount | .tblCount | .outCount | .outCk | .outWord | .lkResult | .reserved _ => s

end Sys2Proof.Machine
end

