-- ==== Sys2Proof/Machine/Construction.lean ====
section
/-! DEFINITION. The word-table construction commands (spec 40_construction.md). -/

namespace Sys2Proof.Machine

/-- TBL_BEGIN: open a load, or restart an open one; the instance held so far ends (R120). -/
def execTblBegin (s : State) : Host.Outcome State Fault Refusal :=
  .next (State.done { s with tblLoading := true, tblValid := false, count := 0, excess := false })

/-- One more entry of the open load: stored at TBL[COUNT], or counted as excess after the 256th (R121, R122). -/
def State.addEntry (s : State) : State :=
  if h : s.count < 256 then { s with tbl := s.tbl.set s.count s.data h, count := s.count + 1 }
  else { s with excess := true }

/-- TBL_WRITE: append DATA to the open load; the table is immutable outside a load (R122). -/
def execTblWrite (s : State) : Host.Outcome State Fault Refusal :=
  .next <| if s.tblLoading then s.addEntry.done else s.raise .tableState

/-- TBL_END: close the load; the table is valid exactly when 256 entries were offered (R123). -/
def execTblEnd (s : State) : Host.Outcome State Fault Refusal :=
  .next <|
    if s.tblLoading then
      if s.count = 256 ∧ s.excess = false then State.done { s with tblLoading := false, tblValid := true }
      else State.raise .invalidConfiguration { s with tblLoading := false, tblValid := false }
    else s.raise .tableState

/-- TBL_DEFAULT: construct with the built-in list (R124). -/
def execTblDefault (s : State) : Host.Outcome State Fault Refusal :=
  .next (State.done
    { s with tbl := defaultWordlist, count := 256, excess := false, tblLoading := false, tblValid := true })

end Sys2Proof.Machine
end

