-- ==== Sys2Proof/Machine/Control.lean ====
section
/-! DEFINITION. The control commands NOP and CLRERR, and the illegal command (spec 44_control.md). -/

namespace Sys2Proof.Machine

/-- NOP: ERRCODE <- 0, nothing else (R200). -/
def execNop (s : State) : Host.Outcome State Fault Refusal := .next s.done

/-- CLRERR: OVERRUN <- 0, ERRCODE <- 0 (R201). -/
def execClrerr (s : State) : Host.Outcome State Fault Refusal := .next (State.done { s with overrun := false })

/-- An illegal word: IllegalCommand, and nothing else changes (R202; log entry 14). -/
def execIllegal (s : State) : Host.Outcome State Fault Refusal := .next (s.raise .illegalCommand)

end Sys2Proof.Machine
end

