-- ==== Sys2Proof/Machine/Operands.lean ====
section
/-! DEFINITION. How commands read their operands: hex characters (spec R144, R145), the judgement of the loaded input
(R147) and the common checks of COMPRESS and HUMANIZE (R213). -/

namespace Sys2Proof.Machine

/-- `hexval(c)` of an 8-bit character code (R144); upper and lower case are equal (R146). -/
def hexval (c : Byte) : Option (BitVec 4) :=
  if 0x30 ≤ c.toNat ∧ c.toNat ≤ 0x39 then some (BitVec.ofNat 4 (c.toNat - 0x30))
  else if 0x41 ≤ c.toNat ∧ c.toNat ≤ 0x46 then some (BitVec.ofNat 4 (c.toNat - 0x37))
  else if 0x61 ≤ c.toNat ∧ c.toNat ≤ 0x66 then some (BitVec.ofNat 4 (c.toNat - 0x57))
  else none

/-- `16 * hexval(first) + hexval(second)`: the first character is the high nibble (R145). -/
def pairByte (first second : BitVec 4) : Byte := 16 * first.setWidth 8 + second.setWidth 8

/-- A non-hex character, a byte inside a pair, or odd length (R147). -/
def digestBad (s : State) : Bool := decide (s.inFault = .badDigest) || s.hexPend

/-- More than MAX_N bytes (R147). -/
def digestOverflow (s : State) : Bool := decide (s.inFault = .overflow)

/-- The first applicable check of COMPRESS, and of HUMANIZE after its own, in the order of R213; `none` when
1 ≤ T ≤ N and the input is good (R165). -/
def inputError (s : State) : Option ErrCode :=
  if digestBad s then some .invalidDigest
  else if digestOverflow s then some .inputOverflow
  else if s.target = 0 then some .invalidTarget
  else if s.inCount < s.target.toNat then some .insufficientInput
  else none

end Sys2Proof.Machine
end

