-- ==== Sys2Proof/Machine/Input.lean ====
section
/-! DEFINITION. The input loading commands CLRIN, PUSHB and PUSHHEX (spec 41_input.md). -/

namespace Sys2Proof.Machine

/-- CLRIN: a new input; the contents of IN are not erased (R140). -/
def execClrin (s : State) : Host.Outcome State Fault Refusal :=
  .next (State.done { s with inCount := 0, hexPend := false, inFault := .none })

/-- PUSHB: append one raw byte (R142). -/
def execPushb (imm8 : Byte) (s : State) : Host.Outcome State Fault Refusal :=
  .next <|
    if s.inFault = .badDigest then s.raise .invalidDigest
    else if s.inFault = .overflow then s.raise .inputOverflow
    else if s.hexPend then State.raise .invalidDigest { s with inFault := .badDigest }
    else s.append imm8

/-- One hex digit of a digest, its value `v` known: the first of a pair goes to NIB, the second completes a byte (R143). -/
def State.pushNibble (v : BitVec 4) (s : State) : State :=
  if s.hexPend then State.append (pairByte s.nib v) { s with hexPend := false }
  else State.done { s with nib := v, hexPend := true }

/-- PUSHHEX: push one character of a hex digest (R143). -/
def execPushhex (imm8 : Byte) (s : State) : Host.Outcome State Fault Refusal :=
  .next <|
    if s.inFault = .badDigest then s.raise .invalidDigest
    else if s.inFault = .overflow then s.raise .inputOverflow
    else
      match hexval imm8 with
      | none => State.raise .invalidDigest { s with inFault := .badDigest }
      | some v => s.pushNibble v

end Sys2Proof.Machine
end

