-- ==== Sys2Proof/Machine/Fold.lean ====
section
/-! DEFINITION. The pure function Compress: segmentation and XOR-fold (spec R160 to R164). `rd` reads IN. -/

namespace Sys2Proof.Machine

/-- s = N / T, division truncating toward zero (R161). -/
def segSize (n t : Nat) : Nat := n / t

/-- lo_i = i * s (R162). -/
def segLo (n t i : Nat) : Nat := i * segSize n t

/-- hi_i = (i + 1) * s, but N for the last segment, which takes the remainder (R162). -/
def segHi (n t i : Nat) : Nat := if i + 1 < t then (i + 1) * segSize n t else n

/-- Folding `len` further bytes, from index `j` on, into the accumulator, in order (R163). -/
def foldFrom (rd : Nat → Byte) (acc : Byte) (j : Nat) : Nat → Byte
  | 0 => acc
  | len + 1 => foldFrom rd (acc ^^^ rd j) (j + 1) len

/-- The XOR-fold of `[lo, hi)`: the accumulator starts at the first byte, no seed (R163). -/
def segFold (rd : Nat → Byte) (lo hi : Nat) : Byte := foldFrom rd (rd lo) (lo + 1) (hi - (lo + 1))

/-- Compress(IN, N, T): one checksum byte per segment, in segment order (R160, R164). -/
def compress (rd : Nat → Byte) (n t : Nat) : List Byte :=
  (List.range t).map fun i => segFold rd (segLo n t i) (segHi n t i)

end Sys2Proof.Machine
end

