-- ==== Sys2Proof/Machine/Reduce.lean ====
section
/-! DEFINITION. COMPRESS, LOOKUP and HUMANIZE (spec 42_compress.md, 43_humanize.md). -/

namespace Sys2Proof.Machine

/-- Compress(IN, N, T) on the block's own input and target (R160). -/
def State.checksums (s : State) : List Byte := compress (Cells.get s.inBuf) s.inCount s.target.toNat

/-- COMPRESS: every check before any write; the input is not consumed, WD is not written (R166). -/
def execCompress (s : State) : Host.Outcome State Fault Refusal :=
  .next <|
    match inputError s with
    | some e => s.raise e
    | none => State.done (s.storeChecksums .checksums s.checksums)

/-- LOOKUP: LK_RESULT <- TBL[imm8], while a valid table is held (R181, R182). -/
def execLookup (imm8 : Byte) (s : State) : Host.Outcome State Fault Refusal :=
  .next <|
    if s.tblValid then State.done { s with lkResult := word s imm8 } else s.raise .notConfigured

/-- Storing the words of the checksums: WD[0..T) (R183). -/
def State.storeWords (cs : List Byte) (s : State) : State := { s with wd := Cells.setFrom s.wd 0 (cs.map (word s)) }

/-- HUMANIZE: the table check first, then the checks of COMPRESS, then checksums and their words (R181, R183). -/
def execHumanize (s : State) : Host.Outcome State Fault Refusal :=
  .next <|
    if s.tblValid then
      match inputError s with
      | some e => s.raise e
      | none => State.done ((s.storeChecksums .words s.checksums).storeWords s.checksums)
    else s.raise .notConfigured

end Sys2Proof.Machine
end

