-- ==== Sys2Proof/Machine/Dispatch.lean ====
section
/-! DEFINITION. One arm per command: its meaning. -/

namespace Sys2Proof.Machine

def exec (i : Instr) (s : State) : Host.Outcome State Fault Refusal :=
  match i with
  | .nop => Sys2Proof.Machine.execNop s
  | .clrin => Sys2Proof.Machine.execClrin s
  | .pushb imm8 => Sys2Proof.Machine.execPushb imm8 s
  | .pushhex imm8 => Sys2Proof.Machine.execPushhex imm8 s
  | .compress => Sys2Proof.Machine.execCompress s
  | .humanize => Sys2Proof.Machine.execHumanize s
  | .lookup imm8 => Sys2Proof.Machine.execLookup imm8 s
  | .tblBegin => Sys2Proof.Machine.execTblBegin s
  | .tblWrite => Sys2Proof.Machine.execTblWrite s
  | .tblEnd => Sys2Proof.Machine.execTblEnd s
  | .tblDefault => Sys2Proof.Machine.execTblDefault s
  | .clrerr => Sys2Proof.Machine.execClrerr s

end Sys2Proof.Machine
end

