-- ==== Sys2Proof/Machine/Agents.lean ====
section
/-! DEFINITION. The moves of the two agents, and which of them can move (spec R20, R82, R72, R240). -/

namespace Sys2Proof.Machine

/-! ### The host -/

/-- A read by the host: the value it gets back is put with its replies (R88). -/
def hostRead (r : Reg) (s : State) : State :=
  { (regRead r s).2 with replies := (regRead r s).1 :: s.replies }

/-- One poll of `wait`: read STATUS, and go on when BUSY is 0 (R107). `s` still has the `wait` at its program's head. -/
def hostPoll (s : State) : State :=
  if (regRead .status s).1.getLsbD 0 then hostRead .status s
  else { hostRead .status s with program := s.program.tail }

/-- The reset input: every field of the block takes its reset value, a pending command among them (R240, R242); the
host's program, replies and turns, and the counter of free values, are not the block's. Log entries 2, 10 and 15. -/
def applyReset (s : State) : State :=
  { State.reset with program := s.program, turns := s.turns, waited := s.waited, engineTurns := s.engineTurns,
                     replies := s.replies, draws := s.draws }

/-- One admitted bus access, at the register it goes to (R71). -/
def hostAccess (r : Reg) (op : BusOp) (s : State) : State :=
  match op with
  | .read => hostRead r s
  | .write v => regWrite r v s

/-- Whether the host can move: it has a statement left, and not an access that R71 does not admit (R72). -/
def hostReady (s : State) : Bool :=
  match s.program with
  | [] => false
  | .bus a :: _ => (accessReg a).isSome
  | _ :: _ => true

/-- The host's move: it performs its next statement (R82, R88). -/
def hostMove (s : State) : Host.Outcome State Fault Refusal :=
  match s.program with
  | [] => .next s
  | .wr r v :: rest => .next (regWrite r v { s with program := rest })
  | .rd r :: rest => .next (hostRead r { s with program := rest })
  | .wait :: _ => .next (hostPoll s)
  | .reset :: rest => .next (applyReset { s with program := rest })
  | .bus a :: rest =>
    match accessReg a with
    | some r => .next (hostAccess r a.op { s with program := rest })
    | none => .fault .accessNotAdmitted

/-! ### The engine -/

/-- The rule of a command word: its instruction's meaning, or the illegal command's (R104, R105, R202). -/
def perform (w : Word) (s : State) : Host.Outcome State Fault Refusal :=
  match decode w with
  | .ok i => exec i s
  | .error _ => execIllegal s

/-- The end of the engine step, in the same step (R20). -/
def retired : Host.Outcome State Fault Refusal → Host.Outcome State Fault Refusal
  | .next t => .next t.retire
  | .fault f => .fault f
  | .refused r => .refused r

/-- The engine's move: it performs the pending command, then PEND is empty (R20). -/
def engineMove (s : State) : Host.Outcome State Fault Refusal :=
  match s.pend with
  | none => .next s
  | some w => retired (perform w s)

/-! ### Who moves -/

/-- Who moves when both can: the head of `turns` (R82); when `turns` is empty, the host until the engine's turn comes, after
a free but finite number of host moves, so that a pending command is eventually performed (R250; log entry 4). -/
def nextTurn (s : State) : Agent × State :=
  match s.turns with
  | a :: rest => (a, { s with turns := rest })
  | [] =>
    if s.waited < hostMovesBefore s.engineTurns then (.host, { s with waited := s.waited + 1 })
    else (.engine, { s with waited := 0, engineTurns := s.engineTurns + 1 })

/-- Neither agent can move: the run is over when the host has no statement left (R247; log entry 7); otherwise the host
is stuck at an access that is not admitted (R72; log entry 6). -/
def noMove (s : State) : Host.Outcome State Fault Refusal :=
  match s.program with
  | [] => .next s
  | _ :: _ => .fault .accessNotAdmitted

/-- The move of the agent whose turn it is, both being able to move. -/
def turnMove (p : Agent × State) : Host.Outcome State Fault Refusal :=
  match p.1 with
  | .host => hostMove p.2
  | .engine => engineMove p.2

/-- One move of the system of two agents (R82). -/
def systemMove (s : State) : Host.Outcome State Fault Refusal :=
  match hostReady s, s.busy with
  | true, true => turnMove (nextTurn s)
  | true, false => hostMove s
  | false, true => engineMove s
  | false, false => noMove s

/-- `s` with the word pending and the engine to move next: what it takes for the next step to perform it (log entry 8). -/
def placeCommand (w : Word) (s : State) : State :=
  { s with pend := some w, turns := if hostReady s then .engine :: s.turns else s.turns }

end Sys2Proof.Machine
end

