-- ==== Sys2Proof/Machine/Step.lean ====
section
/-! DEFINITION. The step: one move of the host or of the engine (spec R20, R82). -/

namespace Sys2Proof.Machine

/-- One step of the machine. -/
def step (s : State) : Host.Outcome State Fault Refusal := systemMove s

/-- `s` with the command word `w` (its bits from `nbits` on zero) where the engine takes its next command. -/
def State.withFetchWord (s : State) (nbits w : Nat) : State :=
  placeCommand (BitVec.ofNat 32 (w % 2 ^ nbits)) s

end Sys2Proof.Machine
end

