-- ==== Sys2Proof/Machine/HostProgram.lean ====
section
/-! DEFINITION. Host programs: `cmd`, the pseudo-instructions and the source-level humanize, as lists of host statements
(spec R107, R108). -/

namespace Sys2Proof.Machine

/-- `cmd <command>` is `wr CMD, <encoding>` (R107). -/
def cmdStmt (i : Instr) : HostStmt := .wr .cmd (encode i)

/-- `cmd` followed by `wait`, as every `cmd` of an expansion is (R108). -/
def cmdWait (i : Instr) : List HostStmt := [cmdStmt i, .wait]

/-- `cmd` and `wait` for an assembler command; nothing for one that does not assemble (R106). -/
def asmWait (c : AsmCommand) : Option (List HostStmt) := c.toInstr?.map cmdWait

/-- The expansion of a list of assembler commands, each with its `wait`. -/
def asmAll : List AsmCommand → Option (List HostStmt)
  | [] => some []
  | c :: cs =>
    match asmWait c, asmAll cs with
    | some p, some q => some (p ++ q)
    | _, _ => none

/-- One `wr DATA, t` and `cmd TBL_WRITE` of a LOADTBL (R108). -/
def loadEntry (t : Token) : List HostStmt := .wr .data t :: cmdWait .tblWrite

/-- The expansion of a pseudo-instruction (R108); an ill-formed one has none. -/
def expandMacro (m : HostMacro) : Option (List HostStmt) :=
  if m.wellFormed then
    match m with
    | .hex s => asmAll (s.map .pushhexChar)
    | .bytes bs => asmAll (bs.map .pushb)
    | .sett n => some [.wr .target (BitVec.ofNat 32 n)]
    | .loadtbl ts => some (cmdWait .tblBegin ++ ts.flatMap loadEntry ++ cmdWait .tblEnd)
    | .rdout i => some [.wr .outIndex (BitVec.ofNat 32 i), .rd .outCk, .rd .outWord]
  else none

/-- The expansions of a list of pseudo-instructions, one after the other. -/
def expandAll : List HostMacro → Option (List HostStmt)
  | [] => some []
  | m :: ms =>
    match expandMacro m, expandAll ms with
    | some p, some q => some (p ++ q)
    | _, _ => none

/-- The source's `humanize(hexDigest, wordCount)` as a host program: CLRIN, HEX, SETT, HUMANIZE, then RDOUT of each
index below wordCount (R108). -/
def humanizeProgram (digest : List Char) (wordCount : Nat) : Option (List HostStmt) :=
  match expandAll [.hex digest, .sett wordCount], expandAll ((List.range wordCount).map .rdout) with
  | some load, some out => some (cmdWait .clrin ++ load ++ cmdWait .humanize ++ out)
  | _, _ => none

end Sys2Proof.Machine
end

