-- ==== Sys2Proof/Safety.lean ====
section
/-! DEFINITION. The terms claims are stated in: the invariant of the state (spec 10_state.md section 4), the end of a run
(R247), the completion hazard (R245), sequences of commands, a table load (R128), and the segments of an input (R162). -/

namespace Sys2Proof.Machine

/-! ### The invariant -/

/-- What every reachable state satisfies: the invariants of 10_state.md section 4, with what they rest on, and the
canonical form of the arrays. -/
structure BlockInv (s : State) : Prop where
  /-- TBL_LOADING = 1 implies TBL_VALID = 0. -/
  loading_not_valid : s.tblLoading = true → s.tblValid = false
  /-- N ≤ MAX_N. -/
  inCount_le : s.inCount ≤ maxN
  /-- COUNT ≤ 256. -/
  count_le : s.count ≤ 256
  /-- EXCESS is set only when 256 entries are written (R39). -/
  excess_full : s.excess = true → s.count = 256
  /-- A valid table is one of which all 256 entries were written, and no more (R123, R124, R240). -/
  valid_full : s.tblValid = true → s.count = 256 ∧ s.excess = false
  /-- An overflowed input is full and holds no half pair (R141, R142, R143). -/
  overflow_full : s.inFault = .overflow → s.inCount = maxN ∧ s.hexPend = false
  /-- OUT_KIND ≠ 0 implies 1 ≤ OUT_COUNT ≤ MAX_N. -/
  outputs_some : s.outKind ≠ .nothing → 1 ≤ s.outCount.toNat ∧ s.outCount.toNat ≤ maxN
  /-- OUT_KIND = 0 only while no COMPRESS or HUMANIZE has succeeded, so OUT_COUNT is 0 (R35, R41). -/
  outputs_none : s.outKind = .nothing → s.outCount = 0
  /-- IN, CK and WD are in canonical form. -/
  inBuf_wf : Cells.wf s.inBuf = true
  ck_wf : Cells.wf s.ck = true
  wd_wf : Cells.wf s.wd = true
  /-- IN, CK and WD have MAX_N elements (R50, R52, R53). -/
  inBuf_within : Cells.within maxN s.inBuf = true
  ck_within : Cells.within maxN s.ck = true
  wd_within : Cells.within maxN s.wd = true

/-! ### Runs -/

/-- The run is over: the host has performed its last access and PEND is empty (R247). -/
def RunOver (s : State) : Prop := s.program = [] ∧ s.pend = none

/-- The statement the host performs next, as an operation on a register: R107's `wr`, `rd` and `wait`, or an admitted
bus access (R71). -/
def stmtOp : HostStmt → Option (Reg × BusOp)
  | .wr r v => some (r, .write v)
  | .rd r => some (r, .read)
  | .wait => some (.status, .read)
  | .bus a => (accessReg a).map fun r => (r, a.op)
  | .reset => none

/-- The four registers whose writes are dropped while BUSY = 1 (R25, R48). -/
def droppedWhileBusy : Reg → Bool
  | .cmd | .target | .data | .outIndex => true
  | .cap | .status | .inCount | .tblCount | .outCount | .outCk | .outWord | .lkResult | .reserved _ => false

/-- The host's next statement breaks R245 (a) or (b): a write to CMD, TARGET, DATA or OUT_INDEX while BUSY = 1. -/
def BreaksWriteHazard (s : State) : Prop :=
  s.busy = true ∧ ∃ h rest r v, s.program = h :: rest ∧ stmtOp h = some (r, .write v) ∧ droppedWhileBusy r = true

/-- Going on after a move. -/
def andThen (o : Host.Outcome State Fault Refusal) (f : State → Host.Outcome State Fault Refusal) :
    Host.Outcome State Fault Refusal :=
  match o with
  | .next t => f t
  | .fault e => .fault e
  | .refused e => .refused e

/-- How many host moves can still come before the engine must move: the turns listed, and then what is left of the delay
(R250; log entry 4). -/
def hostMovesLeft (s : State) : Nat := s.turns.length + (hostMovesBefore s.engineTurns - s.waited)

/-- Steps taken one after the other. -/
def runSteps : Nat → State → Host.Outcome State Fault Refusal
  | 0, s => .next s
  | n + 1, s => andThen (step s) (runSteps n)

/-- Commands performed one after the other. -/
def performAll : List Instr → State → Host.Outcome State Fault Refusal
  | [], s => .next s
  | i :: is, s => andThen (exec i s) (performAll is)

/-- What happens inside a table load, in order: an entry is a TBL_WRITE with DATA written by the host before it (R122); any
other command may stand between the entries (R128). -/
def loadSteps : List (Token ⊕ Instr) → State → Host.Outcome State Fault Refusal
  | [], s => .next s
  | .inl t :: ops, s => andThen (exec .tblWrite (regWrite .data t s)) (loadSteps ops)
  | .inr i :: ops, s => andThen (exec i s) (loadSteps ops)

/-- A whole table load: TBL_BEGIN, what happens inside, TBL_END (R128). -/
def loadTable (ops : List (Token ⊕ Instr)) (s : State) : Host.Outcome State Fault Refusal :=
  andThen (exec .tblBegin s) fun a => andThen (loadSteps ops a) (exec .tblEnd)

/-- The entries offered in a load, in order (R121). -/
def entriesOf (ops : List (Token ⊕ Instr)) : List Token := ops.filterMap Sum.getLeft?

/-- The table commands (40_construction.md). -/
def isTableCommand : Instr → Bool
  | .tblBegin | .tblWrite | .tblEnd | .tblDefault => true
  | .nop | .clrin | .pushb _ | .pushhex _ | .compress | .humanize | .lookup _ | .clrerr => false

/-- A new digest: CLRIN, then a PUSHHEX of each character code (R150). -/
def loadDigest (cs : List Byte) (s : State) : Host.Outcome State Fault Refusal :=
  performAll (.clrin :: cs.map .pushhex) s

/-! ### Parts of the state -/

/-- `s` with the word table, its status and its counters as in `u` (R30, R31, R39, R54). -/
def State.withTableOf (s u : State) : State :=
  { s with tbl := u.tbl, tblValid := u.tblValid, tblLoading := u.tblLoading, count := u.count, excess := u.excess }

/-- The input of `s` is good and 1 ≤ T ≤ N: COMPRESS succeeds (R147, R165). -/
def InputReady (s : State) : Prop :=
  s.inFault = .none ∧ s.hexPend = false ∧ 1 ≤ s.target.toNat ∧ s.target.toNat ≤ s.inCount

/-- The two states differ only where the spec says that no access can tell: NIB without a half pair (R51), IN from N on
(R50), CK and WD where they are not readable (R52, R53), TBL entries not yet written in an open load, or all of them
with no valid table and no open load (R126, R241). -/
structure Indistinguishable (s u : State) : Prop where
  rest : u = { s with nib := u.nib, inBuf := u.inBuf, ck := u.ck, wd := u.wd, tbl := u.tbl }
  nib : s.hexPend = true → u.nib = s.nib
  inBuf : ∀ k, k < s.inCount → Cells.get u.inBuf k = Cells.get s.inBuf k
  ck : s.outKind ≠ .nothing → ∀ k, k < s.outCount.toNat → Cells.get u.ck k = Cells.get s.ck k
  wd : s.outKind = .words → ∀ k, k < s.outCount.toNat → Cells.get u.wd k = Cells.get s.wd k
  tbl : s.tblValid = true ∨ s.tblLoading = true → ∀ (k : Nat) (h : k < 256), k < s.count → u.tbl[k] = s.tbl[k]

/-! ### Segments -/

/-- The indices of segment i (R162). -/
def segIndices (n t i : Nat) : List Nat := List.range' (segLo n t i) (segHi n t i - segLo n t i)

/-- The XOR of a list of bytes. -/
def xorAll (bs : List Byte) : Byte := bs.foldl (· ^^^ ·) 0

end Sys2Proof.Machine
end

