-- ==== Sys2Proof/Certificates/Slice0/Obligations.lean ====
section
/-! DEFINITION. The statements for the provers, from the spec's numbered rules. Where a statement speaks of the contents of
an array after a write, its premise `Cells.wf` (canonical form, kept by every step: `StepKeepsTheInvariant`) rules out
states no run reaches. -/

section

open Sys2Proof Sys2Proof.Machine

/-! ### Encoding -/

/-- R100 to R105: a word decodes to `i` exactly when it is `i`'s word; no bit is dropped and none is free. -/
def Obligations.DecodesToCommandIffItsEncoding : Prop :=
  ∀ (w : Word) (i : Instr), decode w = .ok i ↔ w = encode i

/-- R103: the rows of the opcode table that a word selects are none, or exactly that of the command it decodes to. -/
def Obligations.OpcodeTableSelectsTheDecodedCommand : Prop :=
  ∀ w : Word, ((opcodeRows.filter fun r => (w &&& r.mask) == r.pattern).map OpcodeRow.mnemonic)
    = match decode w with
      | .ok i => [i.mnemonic]
      | .error _ => []

/-- R104, R202: the illegal words are those of R104 (a), (b) and (c); performing one raises IllegalCommand and changes
nothing else. -/
def Obligations.IllegalWordsRaiseIllegalCommandOnly : Prop :=
  ∀ w : Word,
    let op := w.toNat / 2 ^ 24
    let operand := w.toNat % 2 ^ 24
    let illegal := (op = 0x07 ∨ op = 0x0C ∨ op = 0x0D ∨ op = 0x0E ∨ 0x10 ≤ op) ∨
      ((op = 0x00 ∨ op = 0x01 ∨ op = 0x04 ∨ op = 0x05 ∨ op = 0x08 ∨ op = 0x09 ∨ op = 0x0A ∨ op = 0x0B ∨ op = 0x0F) ∧
        operand ≠ 0) ∨
      ((op = 0x02 ∨ op = 0x03 ∨ op = 0x06) ∧ operand / 2 ^ 8 ≠ 0)
    ((∃ e, decode w = .error e) ↔ illegal) ∧
    (illegal → ∀ s : State, perform w s = .next { s with errcode := .illegalCommand } ∧
      (s.pend = some w → hostReady s = false →
        step s = .next { s with errcode := .illegalCommand, pend := none }))

/-- R103: words written out from the opcode table, one of each family, decode to their commands. -/
def Obligations.TableWordsDecodeToTheirCommands : Prop :=
  decode 0x00000000 = .ok .nop ∧ decode 0x0F000000 = .ok .clrerr ∧ decode 0x01000000 = .ok .clrin ∧
  decode 0x020000FF = .ok (.pushb 0xFF) ∧ decode 0x03000061 = .ok (.pushhex 0x61) ∧
  decode 0x04000000 = .ok .compress ∧ decode 0x05000000 = .ok .humanize ∧ decode 0x0600004D = .ok (.lookup 0x4D) ∧
  decode 0x08000000 = .ok .tblBegin ∧ decode 0x09000000 = .ok .tblWrite ∧ decode 0x0A000000 = .ok .tblEnd ∧
  decode 0x0B000000 = .ok .tblDefault

/-- R106: the assembler. A command without operand gives its word; PUSHB, PUSHHEX and LOOKUP with a number give
(OP << 24) | imm8, or an assembly error outside 0..255; PUSHHEX with a character gives its code. That a character must be
ASCII, and how a line is cut into words and a number spelt, is the model's choice (log entry 11). -/
def Obligations.AssemblerEmitsOpcodeAndOperand : Prop :=
  (assembleLine ["NOP"] = some 0x00000000 ∧ assembleLine ["CLRIN"] = some 0x01000000 ∧
    assembleLine ["COMPRESS"] = some 0x04000000 ∧ assembleLine ["HUMANIZE"] = some 0x05000000 ∧
    assembleLine ["TBL_BEGIN"] = some 0x08000000 ∧ assembleLine ["TBL_WRITE"] = some 0x09000000 ∧
    assembleLine ["TBL_END"] = some 0x0A000000 ∧ assembleLine ["TBL_DEFAULT"] = some 0x0B000000 ∧
    assembleLine ["CLRERR"] = some 0x0F000000) ∧
  (∀ n : Nat,
    assemble (.pushb n) = (if n ≤ 255 then some (BitVec.ofNat 32 (0x02 * 2 ^ 24 + n)) else none) ∧
    assemble (.pushhexCode n) = (if n ≤ 255 then some (BitVec.ofNat 32 (0x03 * 2 ^ 24 + n)) else none) ∧
    assemble (.lookup n) = (if n ≤ 255 then some (BitVec.ofNat 32 (0x06 * 2 ^ 24 + n)) else none)) ∧
  (∀ (x : String) (c : Char), x.toList = ['\'', c, '\''] → assembleLine ["PUSHHEX", x] =
    if c.toNat < 128 then some (BitVec.ofNat 32 (0x03 * 2 ^ 24 + c.toNat)) else none) ∧
  (∀ (x : String) (n : Nat), readNumber x.toList = some n →
    assembleLine ["PUSHB", x] = assemble (.pushb n) ∧ assembleLine ["PUSHHEX", x] = assemble (.pushhexCode n) ∧
    assembleLine ["LOOKUP", x] = assemble (.lookup n))

/-! ### The step -/

/-- R20: when the pending word decodes to `i` and the engine moves, the step is `exec i` and then PEND is empty. The
engine moves when the host cannot, or when it is the engine's turn; how turns are given is the model's choice (log
entry 4). -/
def Obligations.StepPerformsThePendingCommand : Prop :=
  ∀ (s t : State) (w : Word) (i : Instr), s.pend = some w → decode w = .ok i →
    (hostReady s = false → exec i s = .next t → step s = .next { t with pend := none }) ∧
    (∀ ts, hostReady s = true → s.turns = .engine :: ts → exec i { s with turns := ts } = .next t →
      step s = .next { t with pend := none }) ∧
    (hostReady s = true → s.turns = [] → hostMovesBefore s.engineTurns ≤ s.waited →
      exec i { s with waited := 0, engineTurns := s.engineTurns + 1 } = .next t →
      step s = .next { t with pend := none })

/-- A command's word placed by `withFetchWord` is performed by the very next step (the engine's step of R20), in every
state. The block fetches nothing (R22): placing the word in PEND with the engine to move is the model's choice (log
entry 8). -/
def Obligations.FetchedWordIsPerformedNext : Prop :=
  ∀ (s t : State) (i : Instr), exec i { s with pend := some (encode i) } = .next t →
    step (s.withFetchWord 32 (encode i).toNat) = .next { t with pend := none }

/-- R82: a step is one move of the host or of the engine. Alone, the agent that can move does. When both can, who moves is
the model's choice (log entry 4): the head of `turns`, so that either order is possible; with `turns` empty, the host until
its free number of moves is used up, then the engine. Once the run is over (R247) a step changes nothing, which is the
model's choice too (log entry 7). -/
def Obligations.StepIsOneMoveOfHostOrEngine : Prop :=
  ∀ s : State,
    (s.pend = none → hostReady s = true → step s = hostMove s) ∧
    (∀ w, s.pend = some w → hostReady s = false → step s = engineMove s) ∧
    (∀ w ts, s.pend = some w → hostReady s = true → s.turns = .engine :: ts →
      step s = engineMove { s with turns := ts }) ∧
    (∀ w ts, s.pend = some w → hostReady s = true → s.turns = .host :: ts →
      step s = hostMove { s with turns := ts }) ∧
    (∀ w, s.pend = some w → hostReady s = true → s.turns = [] →
      step s = if s.waited < hostMovesBefore s.engineTurns then hostMove { s with waited := s.waited + 1 }
        else engineMove { s with waited := 0, engineTurns := s.engineTurns + 1 }) ∧
    (RunOver s → step s = .next s)

/-- R82, R48, P5: a TARGET write issued while a command is pending lands or is dropped, by who moves first (the head of
`turns`: log entry 4). When the engine does, the command is performed with the old target, and then the write lands. -/
def Obligations.TargetWriteRacesThePendingCommand : Prop :=
  ∀ (s : State) (w v : Word) (rest : List HostStmt), s.pend = some w → s.program = .wr .target v :: rest →
    (∀ ts, s.turns = .host :: ts →
      step s = .next { s with turns := ts, program := rest, overrun := true }) ∧
    (∀ ts, s.turns = .engine :: ts → ∃ t u, perform w { s with turns := ts } = .next t ∧
      step s = .next { t with pend := none } ∧ t.target = s.target ∧
      step { t with pend := none } = .next u ∧
      u = { t with pend := none, program := rest, target := v.setWidth 24 })

/-! ### Reset -/

/-- R240: the values of the record after reset. The clauses for NIB, IN, CK and WD are the model's choice (log entry 2). -/
def Obligations.ResetStateHoldsTheResetValues : Prop :=
  let s := State.reset
  s.pend = none ∧ s.busy = false ∧ s.errcode = .success ∧ s.tblValid = true ∧ s.tblLoading = false ∧
  s.hexPend = false ∧ s.inFault = .none ∧ s.overrun = false ∧ s.outKind = .nothing ∧ s.inCount = 0 ∧ s.target = 4 ∧
  s.count = 256 ∧ s.excess = false ∧ s.data = 0 ∧ s.outCount = 0 ∧ s.outIndex = 0 ∧ s.lkResult = 0 ∧
  (∀ (k : Nat) (h : k < 256), s.tbl[k] = defaultWordlist[k]) ∧
  statusWord s = 0x00000100 ∧ tblCountWord s = 0x00000100 ∧
  s.nib = 0 ∧ (∀ k, Cells.get s.inBuf k = 0 ∧ Cells.get s.ck k = 0 ∧ Cells.get s.wd k = 0)

/-- R240, R242: the reset event. Every field of the block takes its reset value, but for the four R240 leaves unspecified;
a pending command is discarded, and nothing of it or of the state before appears. That reset is a statement of the host, and
that the model's own fields (program, turns, waited, engineTurns, replies, draws) are not the block's and are kept, is the
model's choice (log entries 15, 10 and 4). -/
def Obligations.ResetDiscardsThePendingCommand : Prop :=
  ∀ (s : State) (rest : List HostStmt), s.program = .reset :: rest →
    (∃ t, hostMove s = .next t ∧
      t.pend = none ∧ t.errcode = .success ∧ t.tblValid = true ∧ t.tblLoading = false ∧ t.hexPend = false ∧
      t.inFault = .none ∧ t.overrun = false ∧ t.outKind = .nothing ∧ t.inCount = 0 ∧ t.target = 4 ∧ t.count = 256 ∧
      t.excess = false ∧ t.data = 0 ∧ t.outCount = 0 ∧ t.outIndex = 0 ∧ t.lkResult = 0 ∧ t.tbl = defaultWordlist ∧
      t = { State.reset with nib := t.nib, inBuf := t.inBuf, ck := t.ck, wd := t.wd, program := rest,
                             turns := s.turns, waited := s.waited, engineTurns := s.engineTurns,
                             replies := s.replies, draws := s.draws }) ∧
    (s.pend = none → step s = hostMove s) ∧
    (∀ w ts, s.pend = some w → s.turns = .host :: ts → step s = hostMove { s with turns := ts }) ∧
    (∀ w, s.pend = some w → s.turns = [] →
      step s = if s.waited < hostMovesBefore s.engineTurns then hostMove { s with waited := s.waited + 1 }
        else engineMove { s with waited := 0, engineTurns := s.engineTurns + 1 })

/-! ### The invariant -/

/-- 10_state.md section 4: the reset state satisfies the invariant. -/
def Obligations.ResetSatisfiesTheInvariant : Prop := BlockInv State.reset

/-- 10_state.md section 4: every step, of the host or of the engine, keeps the invariant. -/
def Obligations.StepKeepsTheInvariant : Prop :=
  ∀ s t : State, BlockInv s → step s = .next t → BlockInv t

/-- Every command completes in every state, and a step of a state whose host is not stuck answers a next state (R210:
errors do not trap; R72: the one stuck access). That the step then faults by name is the model's choice (log entry 6). -/
def Obligations.OnlyNonAdmittedAccessStopsTheMachine : Prop :=
  (∀ (i : Instr) (s : State), ∃ t, exec i s = .next t) ∧
  (∀ s : State, (∃ t, step s = .next t) ∨
    (step s = .fault .accessNotAdmitted ∧ s.pend = none ∧
      ∃ a rest, s.program = .bus a :: rest ∧
        ¬(a.width = .w32 ∧ base ≤ a.addr ∧ a.addr < base + 64 ∧ a.addr % 4 = 0)))

/-! ### Control commands -/

/-- R200, R201: NOP clears the error code and nothing else, OVERRUN not either, and sets BUSY while it is pending; CLRERR
clears OVERRUN too, and written while BUSY = 1 it is itself dropped. -/
def Obligations.NopAndClrerrClearTheErrorStatus : Prop :=
  encode .nop = 0x00000000 ∧ encode .clrerr = 0x0F000000 ∧
  ∀ s : State,
    exec .nop s = .next { s with errcode := .success } ∧
    exec .clrerr s = .next { s with overrun := false, errcode := .success } ∧
    (s.busy = false → (regWrite .cmd (encode .nop) s).busy = true) ∧
    (s.busy = true → regWrite .cmd (encode .clrerr) s = { s with overrun := true })

/-! ### Input loading -/

/-- R140: CLRIN, and no other command clears IN_FAULT. -/
def Obligations.ClrinStartsANewInput : Prop :=
  encode .clrin = 0x01000000 ∧
  (∀ s : State, exec .clrin s = .next { s with inCount := 0, hexPend := false, inFault := .none, errcode := .success }) ∧
  (∀ (i : Instr) (s t : State), exec i s = .next t → s.inFault ≠ .none → t.inFault = .none → i = .clrin)

/-- R141, R142: PUSHB, in each of its five cases. -/
def Obligations.PushbAppendsOneByteOrReportsItsFault : Prop :=
  ∀ (b : Byte) (s : State), (encode (.pushb b)).toNat = 0x02000000 + b.toNat ∧
    (s.inFault = .badDigest → exec (.pushb b) s = .next { s with errcode := .invalidDigest }) ∧
    (s.inFault = .overflow → exec (.pushb b) s = .next { s with errcode := .inputOverflow }) ∧
    (s.inFault = .none → s.hexPend = true →
      exec (.pushb b) s = .next { s with inFault := .badDigest, errcode := .invalidDigest }) ∧
    (s.inFault = .none → s.hexPend = false → maxN ≤ s.inCount →
      exec (.pushb b) s = .next { s with inFault := .overflow, errcode := .inputOverflow }) ∧
    (s.inFault = .none → s.hexPend = false → s.inCount < maxN → ∃ t, exec (.pushb b) s = .next t ∧
      t = { s with inBuf := t.inBuf, inCount := s.inCount + 1, errcode := .success } ∧
      (Cells.wf s.inBuf = true → Cells.get t.inBuf s.inCount = b) ∧
      ∀ k, k ≠ s.inCount → Cells.get t.inBuf k = Cells.get s.inBuf k)

/-- R143: PUSHHEX, in each of its six cases. -/
def Obligations.PushhexTakesOneDigitOrReportsItsFault : Prop :=
  ∀ (c : Byte) (s : State), (encode (.pushhex c)).toNat = 0x03000000 + c.toNat ∧
    (s.inFault = .badDigest → exec (.pushhex c) s = .next { s with errcode := .invalidDigest }) ∧
    (s.inFault = .overflow → exec (.pushhex c) s = .next { s with errcode := .inputOverflow }) ∧
    (s.inFault = .none → hexval c = none →
      exec (.pushhex c) s = .next { s with inFault := .badDigest, errcode := .invalidDigest }) ∧
    (∀ v, s.inFault = .none → hexval c = some v → s.hexPend = false →
      exec (.pushhex c) s = .next { s with nib := v, hexPend := true, errcode := .success }) ∧
    (∀ v, s.inFault = .none → hexval c = some v → s.hexPend = true → maxN ≤ s.inCount →
      exec (.pushhex c) s =
        .next { s with hexPend := false, inFault := .overflow, errcode := .inputOverflow }) ∧
    (∀ v, s.inFault = .none → hexval c = some v → s.hexPend = true → s.inCount < maxN →
      ∃ t, exec (.pushhex c) s = .next t ∧
        t = { s with hexPend := false, inBuf := t.inBuf, inCount := s.inCount + 1, errcode := .success } ∧
        (Cells.wf s.inBuf = true → (Cells.get t.inBuf s.inCount).toNat = 16 * s.nib.toNat + v.toNat) ∧
        ∀ k, k ≠ s.inCount → Cells.get t.inBuf k = Cells.get s.inBuf k)

/-- R144, R145: the values of the 22 hex codes, the same in either case, and the first character of a pair is the high
nibble. -/
def Obligations.HexDigitsAndPairsHaveTheirValues : Prop :=
  (∀ c : Byte, (hexval c).map BitVec.toNat =
    if 0x30 ≤ c.toNat ∧ c.toNat ≤ 0x39 then some (c.toNat - 0x30)
    else if 0x41 ≤ c.toNat ∧ c.toNat ≤ 0x46 then some (c.toNat - 0x37)
    else if 0x61 ≤ c.toNat ∧ c.toNat ≤ 0x66 then some (c.toNat - 0x57)
    else none) ∧
  (∀ k : Fin 6, hexval (BitVec.ofNat 8 (0x41 + k.val)) = hexval (BitVec.ofNat 8 (0x61 + k.val))) ∧
  (∀ a b : BitVec 4, (pairByte a b).toNat = 16 * a.toNat + b.toNat)

/-- R150: the loading law. A digest of 2m hex characters, m ≤ MAX_N, loads m bytes, each command succeeding. -/
def Obligations.HexDigestLoadsItsBytes : Prop :=
  ∀ (cs : List Byte) (m : Nat) (s : State), cs.length = 2 * m → m ≤ maxN → (∀ c ∈ cs, hexval c ≠ none) →
    (∃ t, loadDigest cs s = .next t ∧ t.inCount = m ∧ t.hexPend = false ∧ t.inFault = .none ∧
      (Cells.wf s.inBuf = true → ∀ (i : Nat) (h : 2 * i + 1 < cs.length) (a b : BitVec 4),
        hexval cs[2 * i] = some a → hexval cs[2 * i + 1] = some b →
        (Cells.get t.inBuf i).toNat = 16 * a.toNat + b.toNat)) ∧
    (∀ k, k ≤ cs.length → ∃ u, loadDigest (cs.take k) s = .next u ∧ u.errcode = .success)

/-- R147, U1: no checksum from a malformed digest. After a digest of odd length or with a non-hex character, COMPRESS and
HUMANIZE fail and leave the outputs as they were. -/
def Obligations.MalformedDigestNeverYieldsChecksums : Prop :=
  ∀ (cs : List Byte) (s t : State), (cs.length % 2 = 1 ∨ ∃ c ∈ cs, hexval c = none) → loadDigest cs s = .next t →
    (∃ e, e ≠ .success ∧ exec .compress t = .next { t with errcode := e }) ∧
    (∃ e, e ≠ .success ∧ exec .humanize t = .next { t with errcode := e })

/-! ### Compress -/

/-- R167, R173: every segment is non-empty; the first T - 1 hold N / T bytes and the last takes the remainder too. -/
def Obligations.SegmentsAreNonEmptyAndLastTakesRemainder : Prop :=
  ∀ n t i : Nat, 1 ≤ t → t ≤ n → i < t →
    (segIndices n t i).length = (if i + 1 < t then n / t else n / t + n % t) ∧ 1 ≤ (segIndices n t i).length ∧
    (n % t = 0 → (segIndices n t i).length = n / t) ∧ segLo n t i < n

/-- R171: the segments are pairwise disjoint and, in order, are exactly the indices 0 .. N - 1. -/
def Obligations.SegmentsPartitionTheInput : Prop :=
  ∀ n t : Nat, 1 ≤ t → t ≤ n →
    (List.range t).flatMap (segIndices n t) = List.range n ∧
    ∀ i j, i < t → j < t → i ≠ j → ∀ k, k ∈ segIndices n t i → k ∉ segIndices n t j

/-- R163, R170: the fold of a non-empty range is the XOR of its bytes, taken in any order. -/
def Obligations.FoldIsTheXorInAnyOrder : Prop :=
  ∀ (rd : Nat → Byte) (lo hi : Nat) (bs : List Byte), lo < hi →
    bs.Perm ((List.range' lo (hi - lo)).map rd) → segFold rd lo hi = xorAll bs

/-- R168, R169: T = N is the identity; T = 1 gives the XOR of every byte. -/
def Obligations.CompressIdentityAndSingleOutput : Prop :=
  ∀ (rd : Nat → Byte) (n : Nat), 1 ≤ n →
    segSize n n = 1 ∧ n % n = 0 ∧ compress rd n n = (List.range n).map rd ∧
    segIndices n 1 0 = List.range n ∧ compress rd n 1 = [xorAll ((List.range n).map rd)]

/-- R172: the XOR of the checksums is the XOR of the input, for every valid T. -/
def Obligations.ChecksumsKeepTheParityOfTheInput : Prop :=
  ∀ (rd : Nat → Byte) (n t : Nat), 1 ≤ t → t ≤ n →
    xorAll (compress rd n t) = xorAll ((List.range n).map rd)

/-- R166: COMPRESS. Its checks in order, before any write; on success CK[i] is the XOR-fold of segment i (R160 to R164) and
nothing else changes. -/
def Obligations.CompressReducesTheInputToItsChecksums : Prop :=
  encode .compress = 0x04000000 ∧
  ∀ s : State,
    (s.inFault = .badDigest ∨ s.hexPend = true → exec .compress s = .next { s with errcode := .invalidDigest }) ∧
    (s.inFault = .overflow → s.hexPend = false → exec .compress s = .next { s with errcode := .inputOverflow }) ∧
    (s.inFault = .none → s.hexPend = false → s.target = 0 →
      exec .compress s = .next { s with errcode := .invalidTarget }) ∧
    (s.inFault = .none → s.hexPend = false → s.target ≠ 0 → s.inCount < s.target.toNat →
      exec .compress s = .next { s with errcode := .insufficientInput }) ∧
    (s.inFault = .none → s.hexPend = false → s.target ≠ 0 → s.target.toNat ≤ s.inCount →
      ∃ t, exec .compress s = .next t ∧
        t = { s with ck := t.ck, outCount := s.target, outKind := .checksums, errcode := .success } ∧
        regValue .outWord t = 0 ∧
        (Cells.wf s.ck = true → ∀ i, i < s.target.toNat →
          let z := s.inCount / s.target.toNat
          let lo := i * z
          let len := if i + 1 < s.target.toNat then z else s.inCount - lo
          Cells.get t.ck i
            = ((List.range' (lo + 1) (len - 1)).map (Cells.get s.inBuf)).foldl (· ^^^ ·) (Cells.get s.inBuf lo)) ∧
        ∀ i, s.target.toNat ≤ i → Cells.get t.ck i = Cells.get s.ck i)

/-- R151, R188: COMPRESS and HUMANIZE do not consume the input, and performed again on the same input, target and
table they give the same outputs. -/
def Obligations.InputIsKeptAndOutputsAreRepeatable : Prop :=
  (∀ s t : State, (exec .compress s = .next t ∨ exec .humanize s = .next t) →
    t.inCount = s.inCount ∧ t.inBuf = s.inBuf ∧ t.hexPend = s.hexPend ∧ t.inFault = s.inFault ∧
      t.target = s.target) ∧
  (∀ s t : State, Cells.wf s.ck = true → Cells.wf s.wd = true → t.errcode = .success →
    (exec .compress s = .next t → ∃ u, exec .compress t = .next u ∧ u.errcode = .success ∧
      u.outCount = t.outCount ∧ ∀ i, Cells.get u.ck i = Cells.get t.ck i) ∧
    (exec .humanize s = .next t → ∃ u, exec .humanize t = .next u ∧ u.errcode = .success ∧
      u.outCount = t.outCount ∧ ∀ i, Cells.get u.ck i = Cells.get t.ck i ∧ Cells.get u.wd i = Cells.get t.wd i))

/-! ### Lookup and humanize -/

/-- R180, R182: LOOKUP. -/
def Obligations.LookupReturnsTheIndexedToken : Prop :=
  ∀ (b : Byte) (s : State), (encode (.lookup b)).toNat = 0x06000000 + b.toNat ∧
    (s.tblValid = false → exec (.lookup b) s = .next { s with errcode := .notConfigured }) ∧
    (s.tblValid = true →
      exec (.lookup b) s = .next { s with lkResult := s.tbl[b.toNat]'b.isLt, errcode := .success })

/-- R183: HUMANIZE. Its checks in order, before any write; on success CK and WD hold the T checksums and their tokens TBL[CK[i]] (R180). -/
def Obligations.HumanizeMapsTheChecksumsToTheirTokens : Prop :=
  encode .humanize = 0x05000000 ∧
  (∀ (s : State) (b : Byte), word s b = s.tbl[b.toNat]'b.isLt) ∧
  ∀ s : State,
    (s.tblValid = false → exec .humanize s = .next { s with errcode := .notConfigured }) ∧
    (s.tblValid = true → s.inFault = .badDigest ∨ s.hexPend = true →
      exec .humanize s = .next { s with errcode := .invalidDigest }) ∧
    (s.tblValid = true → s.inFault = .overflow → s.hexPend = false →
      exec .humanize s = .next { s with errcode := .inputOverflow }) ∧
    (s.tblValid = true → s.inFault = .none → s.hexPend = false → s.target = 0 →
      exec .humanize s = .next { s with errcode := .invalidTarget }) ∧
    (s.tblValid = true → s.inFault = .none → s.hexPend = false → s.target ≠ 0 → s.inCount < s.target.toNat →
      exec .humanize s = .next { s with errcode := .insufficientInput }) ∧
    (s.tblValid = true → s.inFault = .none → s.hexPend = false → s.target ≠ 0 → s.target.toNat ≤ s.inCount →
      ∃ t, exec .humanize s = .next t ∧
        t = { s with ck := t.ck, wd := t.wd, outCount := s.target, outKind := .words, errcode := .success } ∧
        (Cells.wf s.ck = true → Cells.wf s.wd = true → ∀ i, i < s.target.toNat →
          let z := s.inCount / s.target.toNat
          let lo := i * z
          let len := if i + 1 < s.target.toNat then z else s.inCount - lo
          let c := ((List.range' (lo + 1) (len - 1)).map (Cells.get s.inBuf)).foldl (· ^^^ ·) (Cells.get s.inBuf lo)
          Cells.get t.ck i = c ∧ Cells.get t.wd i = word s c) ∧
        ∀ i, s.target.toNat ≤ i → Cells.get t.ck i = Cells.get s.ck i ∧ Cells.get t.wd i = Cells.get s.wd i)

/-- R184, R185: after a successful HUMANIZE exactly T words are readable, each the token of its checksum, and the
checksums are those of Compress. -/
def Obligations.HumanizeGivesExactlyTargetWords : Prop :=
  ∀ s t : State, Cells.wf s.ck = true → Cells.wf s.wd = true → exec .humanize s = .next t → t.errcode = .success →
    t.outCount = s.target ∧ t.outKind = .words ∧
    (∀ i, i < s.target.toNat → Cells.get t.wd i = word t (Cells.get t.ck i) ∧
      (compress (Cells.get s.inBuf) s.inCount s.target.toNat)[i]? = some (Cells.get t.ck i)) ∧
    (∀ k : BitVec 24, regValue .outWord { t with outIndex := k } =
      if k.toNat < s.target.toNat then word t (Cells.get t.ck k.toNat) else 0)

/-- R186: the source's vector. The digest "1A2B3C4D" with T = 4 gives the tokens at 26, 43, 60 and 77. It wants room for its
four bytes; a block whose MAX_N is less reports InputOverflow. -/
def Obligations.SourceDigestSelectsItsFourTokens : Prop :=
  ∀ s : State, s.tblValid = true → s.target = 4 → Cells.wf s.inBuf = true → Cells.wf s.ck = true → Cells.wf s.wd = true →
    ∃ t u, loadDigest [0x31, 0x41, 0x32, 0x42, 0x33, 0x43, 0x34, 0x44] s = .next t ∧ exec .humanize t = .next u ∧
      (4 ≤ maxN → u.errcode = .success ∧
        (List.range 4).map (Cells.get t.inBuf) = [0x1A, 0x2B, 0x3C, 0x4D] ∧
        (List.range 4).map (Cells.get u.ck) = [0x1A, 0x2B, 0x3C, 0x4D] ∧
        (List.range 4).map (Cells.get u.wd) = [s.tbl[26], s.tbl[43], s.tbl[60], s.tbl[77]]) ∧
      (maxN < 4 → u.errcode = .inputOverflow)

/-- R187: with pairwise distinct entries, two results with the same T have equal words exactly when they have equal
checksums. -/
def Obligations.DistinctTableMakesHumanizeInjective : Prop :=
  ∀ s s' t t' : State, (∀ a b : Byte, s.tbl[a.toNat]'a.isLt = s.tbl[b.toNat]'b.isLt → a = b) → s'.tbl = s.tbl →
    s'.target = s.target → Cells.wf s.ck = true → Cells.wf s.wd = true → Cells.wf s'.ck = true →
    Cells.wf s'.wd = true → exec .humanize s = .next t → exec .humanize s' = .next t' → t.errcode = .success →
    t'.errcode = .success →
    ((∀ i, i < s.target.toNat → Cells.get t.wd i = Cells.get t'.wd i) ↔
      (∀ i, i < s.target.toNat → Cells.get t.ck i = Cells.get t'.ck i))

/-! ### Table construction -/

/-- R120: TBL_BEGIN. From then on LOOKUP and HUMANIZE raise NotConfigured until a TBL_END succeeds or a TBL_DEFAULT is
performed. -/
def Obligations.TblBeginOpensALoad : Prop :=
  encode .tblBegin = 0x08000000 ∧
  (∀ s : State, exec .tblBegin s = .next
    { s with tblLoading := true, tblValid := false, count := 0, excess := false, errcode := .success }) ∧
  (∀ (b : Byte) (s : State), s.tblValid = false →
    exec (.lookup b) s = .next { s with errcode := .notConfigured } ∧
    exec .humanize s = .next { s with errcode := .notConfigured }) ∧
  (∀ (i : Instr) (s t : State), s.tblValid = false → exec i s = .next t → t.tblValid = true →
    i = .tblDefault ∨ (i = .tblEnd ∧ t.errcode = .success))

/-- R122: TBL_WRITE, in each of its three cases. -/
def Obligations.TblWriteAppendsOneEntry : Prop :=
  encode .tblWrite = 0x09000000 ∧
  ∀ s : State,
    (s.tblLoading = false → exec .tblWrite s = .next { s with errcode := .tableState }) ∧
    (s.tblLoading = true → s.count < 256 → ∃ t, exec .tblWrite s = .next t ∧
      t = { s with tbl := t.tbl, count := s.count + 1, errcode := .success } ∧
      ∀ (k : Nat) (h : k < 256), t.tbl[k] = if k = s.count then s.data else s.tbl[k]) ∧
    (s.tblLoading = true → 256 ≤ s.count → exec .tblWrite s = .next { s with excess := true, errcode := .success })

/-- R123: TBL_END, in each of its three cases. -/
def Obligations.TblEndChecksTheCount : Prop :=
  encode .tblEnd = 0x0A000000 ∧
  ∀ s : State,
    (s.tblLoading = false → exec .tblEnd s = .next { s with errcode := .tableState }) ∧
    (s.tblLoading = true → s.count = 256 → s.excess = false →
      exec .tblEnd s = .next { s with tblLoading := false, tblValid := true, errcode := .success }) ∧
    (s.tblLoading = true → s.count ≠ 256 ∨ s.excess = true → exec .tblEnd s = .next
      { s with tblLoading := false, tblValid := false, errcode := .invalidConfiguration })

/-- R124: TBL_DEFAULT, and every LOOKUP after it returns an entry of DEFAULT_WORDLIST. -/
def Obligations.TblDefaultLoadsTheDefaultWordlist : Prop :=
  encode .tblDefault = 0x0B000000 ∧
  ∀ s : State, ∃ t, exec .tblDefault s = .next t ∧
    t = { s with tbl := t.tbl, count := 256, excess := false, tblLoading := false, tblValid := true,
                 errcode := .success } ∧
    (∀ (k : Nat) (h : k < 256), t.tbl[k] = defaultWordlist[k]) ∧
    ∀ b : Byte, exec (.lookup b) t = .next { t with lkResult := defaultWordlist[b.toNat]'b.isLt }

/-- R128, R121: the construction law. A load of k entries, with any other commands but table commands between them,
succeeds exactly when k = 256, whatever the entries are, and the k-th entry offered is entry k of the table. -/
def Obligations.TableLoadSucceedsExactlyWith256Entries : Prop :=
  ∀ (ops : List (Token ⊕ Instr)) (s : State), s.pend = none → (∀ i, .inr i ∈ ops → isTableCommand i = false) →
    ∃ t, loadTable ops s = .next t ∧ t.tblLoading = false ∧
      (t.errcode = .success ↔ (entriesOf ops).length = 256) ∧ (t.tblValid = true ↔ (entriesOf ops).length = 256) ∧
      ((entriesOf ops).length ≠ 256 → t.errcode = .invalidConfiguration) ∧
      ∀ (k : Nat) (h : k < 256) (h' : k < (entriesOf ops).length), t.tbl[k] = (entriesOf ops)[k]

/-! ### Errors -/

/-- R211: the codes of the errors. -/
def Obligations.ErrorCodesHaveTheirNumbers : Prop :=
  ErrCode.success.code = 0 ∧ ErrCode.invalidConfiguration.code = 1 ∧ ErrCode.insufficientInput.code = 2 ∧
  ErrCode.invalidDigest.code = 3 ∧ ErrCode.invalidTarget.code = 4 ∧ ErrCode.notConfigured.code = 5 ∧
  ErrCode.inputOverflow.code = 6 ∧ ErrCode.tableState.code = 7 ∧ ErrCode.illegalCommand.code = 8 ∧
  ∀ e : ErrCode, e.code.toNat ≤ 8

/-- R212: the commands that raise no error. -/
def Obligations.SomeCommandsNeverFail : Prop :=
  ∀ (i : Instr) (s : State), (i = .nop ∨ i = .clrin ∨ i = .tblBegin ∨ i = .tblDefault ∨ i = .clrerr) →
    ∃ t, exec i s = .next t ∧ t.errcode = .success

/-- R213: when several errors apply, the first in the order of the table is reported. -/
def Obligations.FirstApplicableErrorIsReported : Prop :=
  ∀ s t : State,
    let bad := s.inFault = .badDigest
    let ovf := s.inFault = .overflow
    let full := maxN ≤ s.inCount
    let target (rest : ErrCode) :=
      if bad ∨ s.hexPend = true then .invalidDigest
      else if ovf then .inputOverflow
      else if s.target.toNat = 0 then .invalidTarget
      else if s.inCount < s.target.toNat then ErrCode.insufficientInput
      else rest
    (exec .humanize s = .next t → t.errcode = if s.tblValid = false then .notConfigured else target .success) ∧
    (exec .compress s = .next t → t.errcode = target .success) ∧
    (∀ b, exec (.lookup b) s = .next t → t.errcode = if s.tblValid = false then .notConfigured else .success) ∧
    (∀ b, exec (.pushb b) s = .next t → t.errcode =
      if bad then .invalidDigest else if ovf then .inputOverflow else if s.hexPend = true then .invalidDigest
      else if full then .inputOverflow else .success) ∧
    (∀ c, exec (.pushhex c) s = .next t → t.errcode =
      if bad then .invalidDigest else if ovf then .inputOverflow else if hexval c = none then .invalidDigest
      else if s.hexPend = true ∧ full then .inputOverflow else .success) ∧
    (exec .tblWrite s = .next t → t.errcode = if s.tblLoading = false then .tableState else .success) ∧
    (exec .tblEnd s = .next t → t.errcode =
      if s.tblLoading = false then .tableState
      else if s.count = 256 ∧ s.excess = false then .success else .invalidConfiguration) ∧
    (∀ w e, decode w = .error e → perform w s = .next t → t.errcode = .illegalCommand)

/-- R214: the side effects of a failing command. A push sets IN_FAULT only on a new fault, and PUSHHEX clears HEX_PEND
exactly before an overflowing append. -/
def Obligations.FailingCommandsChangeOnlyTheirFaultMarks : Prop :=
  (∀ (w : Word) (e : DecodeReject) (s : State), decode w = .error e →
    perform w s = .next { s with errcode := .illegalCommand }) ∧
  ∀ (i : Instr) (s t : State), exec i s = .next t → t.errcode ≠ .success →
    match i with
    | .pushb _ => t = { s with errcode := t.errcode, inFault := t.inFault } ∧ t.inFault ≠ .none ∧
      (s.inFault ≠ .none → t.inFault = s.inFault)
    | .pushhex _ =>
      t = { s with errcode := t.errcode, inFault := t.inFault, hexPend := t.hexPend } ∧ t.inFault ≠ .none ∧
      (s.inFault ≠ .none → t.inFault = s.inFault) ∧
      (s.inFault = .none → t.inFault = .overflow → s.hexPend = true ∧ t.hexPend = false) ∧
      (t.hexPend ≠ s.hexPend → s.hexPend = true ∧ s.inFault = .none ∧ t.inFault = .overflow ∧ maxN ≤ s.inCount)
    | .tblEnd =>
      (t.errcode = .tableState ∧ t = { s with errcode := .tableState }) ∨
      (t.errcode = .invalidConfiguration ∧
        t = { s with errcode := .invalidConfiguration, tblLoading := false, tblValid := false })
    | .nop | .clrin | .compress | .humanize | .lookup _ | .tblBegin | .tblWrite | .tblDefault | .clrerr =>
      t = { s with errcode := t.errcode }

/-- R218 where R123, R213 and R214 allow it: a failed command, an illegal word among them, performed again raises the same
error and changes nothing. The one failure left out is TBL_END's InvalidConfiguration: the load is closed before the raise, so
the repeat is a TBL_END with no load open and raises TableState (log entry 9). -/
def Obligations.RepeatingAFailedCommandFailsAlike : Prop :=
  (∀ (i : Instr) (s t : State), exec i s = .next t → t.errcode ≠ .success →
    (i ≠ .tblEnd ∨ t.errcode = .tableState → exec i t = .next t) ∧
    (i = .tblEnd → t.errcode ≠ .tableState →
      t.errcode = .invalidConfiguration ∧ exec i t = .next { t with errcode := .tableState })) ∧
  (∀ (w : Word) (e : DecodeReject) (s t : State), decode w = .error e → perform w s = .next t →
    t.errcode = .illegalCommand ∧ perform w t = .next t)

/-! ### Rules of the whole machine -/

/-- R30 to R35, R37, R39 to R42, R45, R50 to R54: each register is written only by the commands its rule names. -/
def Obligations.CommandsWriteOnlyTheirOwnRegisters : Prop :=
  ∀ (i : Instr) (s t : State), exec i s = .next t →
    (i ≠ .tblBegin → i ≠ .tblEnd → i ≠ .tblDefault → t.tblValid = s.tblValid ∧ t.tblLoading = s.tblLoading) ∧
    (i ≠ .tblBegin → i ≠ .tblWrite → i ≠ .tblDefault → t.count = s.count ∧ t.excess = s.excess) ∧
    (i ≠ .tblWrite → i ≠ .tblDefault → t.tbl = s.tbl) ∧
    (s.tblLoading = false → i ≠ .tblDefault → t.tbl = s.tbl) ∧
    ((∀ c, i ≠ .pushhex c) → t.nib = s.nib ∧ (i ≠ .clrin → t.hexPend = s.hexPend)) ∧
    ((∀ b, i ≠ .pushb b) → (∀ c, i ≠ .pushhex c) → t.inBuf = s.inBuf ∧
      (i ≠ .clrin → t.inFault = s.inFault ∧ t.inCount = s.inCount)) ∧
    (i ≠ .clrerr → t.overrun = s.overrun) ∧
    (i ≠ .compress → i ≠ .humanize → t.outKind = s.outKind ∧ t.outCount = s.outCount ∧ t.ck = s.ck) ∧
    (i ≠ .humanize → t.wd = s.wd) ∧
    ((∀ b, i ≠ .lookup b) → t.lkResult = s.lkResult) ∧
    (t.target = s.target ∧ t.data = s.data ∧ t.outIndex = s.outIndex ∧ t.pend = s.pend)

/-- R55: no command reads ERRCODE or OVERRUN as an input. -/
def Obligations.NoCommandReadsErrorStatus : Prop :=
  ∀ (i : Instr) (s t : State) (e : ErrCode) (o : Bool), exec i s = .next t →
    exec i { s with errcode := e, overrun := o } = .next { t with overrun := if i = .clrerr then false else o }

/-- R241, R126: contents the spec leaves unspecified cannot be observed. Two states that differ only in them read alike at
every register, and a step takes them to two such states, or stops both. -/
def Obligations.UnspecifiedContentsAreUnobservable : Prop :=
  ∀ s u : State, BlockInv s → BlockInv u → Indistinguishable s u →
    (∀ r, (regRead r u).1 = (regRead r s).1) ∧
    (∀ t, step s = .next t → ∃ v, step u = .next v ∧ Indistinguishable t v) ∧
    (∀ f, step s = .fault f → step u = .fault f)

/-- R127: the table state does not affect the input loaders or COMPRESS. -/
def Obligations.TableStateDoesNotAffectLoadingOrCompress : Prop :=
  ∀ (i : Instr) (s u t : State), (i = .clrin ∨ i = .compress ∨ (∃ b, i = .pushb b) ∨ ∃ c, i = .pushhex c) →
    exec i s = .next t → exec i (s.withTableOf u) = .next (t.withTableOf u)

/-! ### The register window -/

/-- R71, R72: the admitted accesses and where they go; at a non-admitted one the host has no step. That the engine still
performs a pending command there (R20, R82), and that the machine stops when nothing is pending, is the model's choice (log
entry 6). -/
def Obligations.OnlyAlignedWordAccessesAreAdmitted : Prop :=
  (∀ (a : Access) (r : Reg), accessReg a = some r ↔
    a.width = .w32 ∧ base ≤ a.addr ∧ a.addr < base + 64 ∧ a.addr % 4 = 0 ∧ a.addr = base + regOffset r) ∧
  (∀ (a : Access) (s : State) (rest : List HostStmt), s.program = .bus a :: rest →
    ((a.width = .w32 ∧ base ≤ a.addr ∧ a.addr < base + 64 ∧ a.addr % 4 = 0) → s.pend = none →
      ∃ r, a.addr = base + regOffset r ∧ step s = .next (match a.op with
        | .read => hostRead r { s with program := rest }
        | .write v => regWrite r v { s with program := rest })) ∧
    (¬(a.width = .w32 ∧ base ≤ a.addr ∧ a.addr < base + 64 ∧ a.addr % 4 = 0) →
      (s.pend = none → ∀ t, step s ≠ .next t) ∧
      (∀ w, s.pend = some w → step s = engineMove s ∧
        ∃ t, step s = .next t ∧ t.program = s.program ∧ t.pend = none)))

/-- R24, R26, R39: the packed registers, field by field, and their reserved bits (R36). -/
def Obligations.PackedRegistersHoldTheirFields : Prop :=
  ∀ s : State,
    let w := statusWord s
    w.getLsbD 0 = s.busy ∧ w.getLsbD 1 = decide (s.errcode ≠ .success) ∧ w.extractLsb' 2 2 = 0 ∧
    w.extractLsb' 4 4 = s.errcode.code ∧ w.getLsbD 8 = s.tblValid ∧ w.getLsbD 9 = s.tblLoading ∧
    w.getLsbD 10 = s.hexPend ∧ w.getLsbD 11 = false ∧ w.extractLsb' 12 2 = s.inFault.code ∧
    w.getLsbD 14 = s.overrun ∧ w.getLsbD 15 = false ∧ w.extractLsb' 16 2 = s.outKind.code ∧
    w.extractLsb' 18 14 = 0 ∧
    capWord.toNat = 0x01000000 + maxN ∧
    (s.count ≤ 256 → (tblCountWord s).toNat = s.count + (if s.excess then 512 else 0))

/-- R79, R43, R44: the values of reads while BUSY = 0; a read changes no state (R76). -/
def Obligations.IdleReadsReturnTheRegisters : Prop :=
  ∀ s : State, s.pend = none →
    (∀ r, (regRead r s).2 = s) ∧
    (regRead .cap s).1 = capWord ∧ (regRead .cmd s).1 = 0 ∧ (regRead .status s).1 = statusWord s ∧
    (s.inCount ≤ maxN → (regRead .inCount s).1.toNat = s.inCount) ∧
    (regRead .target s).1.toNat = s.target.toNat ∧ (regRead .tblCount s).1 = tblCountWord s ∧
    (regRead .data s).1 = s.data ∧ (regRead .outCount s).1.toNat = s.outCount.toNat ∧
    (regRead .outIndex s).1.toNat = s.outIndex.toNat ∧
    (regRead .outCk s).1.toNat = (if (s.outKind = .checksums ∨ s.outKind = .words) ∧
      s.outIndex.toNat < s.outCount.toNat then (Cells.get s.ck s.outIndex.toNat).toNat else 0) ∧
    (regRead .outWord s).1 = (if s.outKind = .words ∧ s.outIndex.toNat < s.outCount.toNat then
      Cells.get s.wd s.outIndex.toNat else 0) ∧
    (regRead .lkResult s).1 = s.lkResult ∧ ∀ k, (regRead (.reserved k) s).1 = 0

/-- R49, R36: reads while BUSY = 1. CAP, TARGET, DATA and OUT_INDEX are exact, STATUS shows BUSY and OVERRUN exactly and its
reserved bits as 0, the reserved offsets read 0; the rest is the free value of that draw (log entry 5). -/
def Obligations.BusyReadsAreExactOrDrawn : Prop :=
  ∀ (s : State) (w : Word), s.pend = some w →
    let st := (regRead .status s).1
    let d := busyDraw s.draws
    regRead .cap s = (capWord, s) ∧ regRead .target s = (s.target.setWidth 32, s) ∧ regRead .data s = (s.data, s) ∧
    regRead .outIndex s = (s.outIndex.setWidth 32, s) ∧ (∀ k, regRead (.reserved k) s = (0, s)) ∧
    st.getLsbD 0 = true ∧ st.getLsbD 14 = s.overrun ∧ st.extractLsb' 2 2 = 0 ∧ st.getLsbD 11 = false ∧
    st.getLsbD 15 = false ∧ st.extractLsb' 18 14 = 0 ∧
    (∀ k, k = 1 ∨ (4 ≤ k ∧ k ≤ 10) ∨ k = 12 ∨ k = 13 ∨ k = 16 ∨ k = 17 → st.getLsbD k = d.getLsbD k) ∧
    (∀ r, r = .inCount ∨ r = .tblCount ∨ r = .outCount ∨ r = .outCk ∨ r = .outWord ∨ r = .lkResult →
      regRead r s = (d, { s with draws := s.draws + 1 })) ∧
    (regRead .status s).2 = { s with draws := s.draws + 1 }

/-- R25: a write to CMD is accepted while PEND is empty and dropped, setting OVERRUN, while it is not; a read gives 0. That it does
so while BUSY = 1 too is deduced, since R49 does not list CMD (log entry 13). -/
def Obligations.CmdWriteIsAcceptedOrDropped : Prop :=
  ∀ (s : State) (v : Word),
    (s.pend = none → regWrite .cmd v s = { s with pend := some v } ∧ (regWrite .cmd v s).busy = true) ∧
    (∀ w, s.pend = some w → regWrite .cmd v s = { s with overrun := true }) ∧
    (regRead .cmd s).1 = 0

/-- R48 (and R38, R40, R42): TARGET, DATA and OUT_INDEX store while BUSY = 0, and drop the write and set OVERRUN while
BUSY = 1. -/
def Obligations.OperandRegistersStoreOnlyWhileIdle : Prop :=
  ∀ (s : State) (v : Word),
    (s.pend = none → ∃ a b c, regWrite .target v s = { s with target := a } ∧ a.toNat = v.toNat % 2 ^ 24 ∧
      regWrite .data v s = { s with data := b } ∧ b = v ∧
      regWrite .outIndex v s = { s with outIndex := c } ∧ c.toNat = v.toNat % 2 ^ 24) ∧
    (∀ w r, s.pend = some w → (r = .target ∨ r = .data ∨ r = .outIndex) →
      regWrite r v s = { s with overrun := true })

/-- R46, R47: writes to read-only registers and reserved offsets change nothing, whatever BUSY is; a reserved offset reads
0 without side effect. -/
def Obligations.ReadOnlyAndReservedWritesAreIgnored : Prop :=
  ∀ (s : State) (v : Word) (r : Reg), (r = .cap ∨ r = .status ∨ r = .inCount ∨ r = .tblCount ∨ r = .outCount ∨
      r = .outCk ∨ r = .outWord ∨ r = .lkResult ∨ ∃ k, r = .reserved k) →
    regWrite r v s = s ∧ ∀ k, regRead (.reserved k) s = (0, s)

/-- R34: OVERRUN is set exactly by a dropped write, and only CLRERR and reset clear it; it is 0 after reset. -/
def Obligations.OverrunMarksDroppedWritesUntilCleared : Prop :=
  (∀ s t : State, hostMove s = .next t → s.overrun = false → (t.overrun = true ↔ BreaksWriteHazard s)) ∧
  (∀ s t : State, hostMove s = .next t → s.overrun = true → t.overrun = false → ∃ rest, s.program = .reset :: rest) ∧
  (∀ s t : State, engineMove s = .next t → (s.overrun = false → t.overrun = false) ∧
    (s.overrun = true → (t.overrun = false ↔ s.pend = some (encode .clrerr)))) ∧
  State.reset.overrun = false

/-- R76: a register read, by the host's `rd`, changes nothing of the block; the host gets one reply. The host moves with
nothing pending, or in its turn (log entry 4). -/
def Obligations.HostReadChangesNothingOfTheBlock : Prop :=
  ∀ (s : State) (r : Reg) (rest : List HostStmt), s.program = .rd r :: rest →
    (∃ t, hostMove s = .next t ∧
      t = { s with program := rest, replies := t.replies, draws := t.draws } ∧
      t.replies = (regRead r s).1 :: s.replies) ∧
    (s.pend = none → step s = hostMove s) ∧
    (∀ w ts, s.pend = some w → s.turns = .host :: ts → step s = hostMove { s with turns := ts })

/-- R83, R107: `wait` goes on exactly when BUSY is 0, and it changes nothing of the block. -/
def Obligations.WaitGoesOnExactlyWhenNothingIsPending : Prop :=
  ∀ (s : State) (rest : List HostStmt), s.program = .wait :: rest → ∃ t, hostMove s = .next t ∧
    (t.program = rest ↔ s.pend = none) ∧ (t.program = s.program ↔ s.pend ≠ none) ∧
    t = { s with program := t.program, replies := t.replies, draws := t.draws }

/-- R83, R250: given its turn, the engine completes a pending command in one step, and the next poll of `wait` goes on. And
its turn comes: from every state with a command pending, after finitely many steps, no more than `hostMovesLeft`, the
command still pending is performed, unless the host's reset input discards it (R242). How many host moves may come before
is a free but finite number (log entry 4). -/
def Obligations.EngineTurnCompletesAWaitedCommand : Prop :=
  (∀ (s : State) (w : Word) (rest : List HostStmt) (ts : List Agent), s.pend = some w → s.program = .wait :: rest →
    s.turns = .engine :: ts →
    ∃ t u, step s = .next t ∧ t.pend = none ∧ t.turns = ts ∧ step t = .next u ∧ u.program = rest ∧
      u = { t with program := rest, replies := statusWord t :: t.replies }) ∧
  ∀ (s : State) (w : Word), s.pend = some w → ∃ n u v, n ≤ hostMovesLeft s ∧
    runSteps n s = .next u ∧ u.pend = some w ∧ step u = .next v ∧ v.pend = none ∧
    ((∃ x t, x = { u with turns := x.turns, waited := x.waited, engineTurns := x.engineTurns } ∧
        perform w x = .next t ∧ v = { t with pend := none }) ∨
      u.program = .reset :: v.program)

/-- R248: a write to TARGET, DATA or OUT_INDEX is seen by the next access: a read gives what was written, TBL_WRITE stores
it, and OUT_CK shows the element it selects. -/
def Obligations.RegisterWritesTakeEffectAtOnce : Prop :=
  ∀ (s t : State) (v : Word), s.pend = none →
    (regRead .target (regWrite .target v s)).1.toNat = v.toNat % 2 ^ 24 ∧
    (regRead .data (regWrite .data v s)).1 = v ∧
    (regRead .outIndex (regWrite .outIndex v s)).1.toNat = v.toNat % 2 ^ 24 ∧
    (∀ h : s.count < 256, s.tblLoading = true → exec .tblWrite (regWrite .data v s) = .next t →
      t.tbl[s.count] = v) ∧
    (v.toNat < s.outCount.toNat → s.outKind ≠ .nothing →
      (regRead .outCk (regWrite .outIndex v s)).1.toNat = (Cells.get s.ck v.toNat).toNat)

/-- R108: a LOADTBL of 256 tokens is TBL_BEGIN, then DATA and TBL_WRITE for each token, then TBL_END, each command with its
`wait`; any other number of tokens is refused. -/
def Obligations.LoadtblExpandsToItsLoad : Prop :=
  ∀ ts : List Token, expandMacro (.loadtbl ts) =
    if ts.length = 256 then
      some ([.wr .cmd 0x08000000, .wait] ++ (ts.map fun t => [.wr .data t, .wr .cmd 0x09000000, .wait]).flatten
        ++ [.wr .cmd 0x0A000000, .wait])
    else none

end
end

