-- ==== Sys2Proof/Laws/State.lean ====
section
/-! SUPPORT. One lemma per field for each named update of the state, all true by `rfl`. -/

namespace Sys2Proof.Machine

/-! ### `State.finish` -/

/-- Only the last result stays in ERRCODE (R29). -/
@[simp] theorem State.finish_finish (e e' : ErrCode) (s : State) : (s.finish e').finish e = s.finish e := rfl
@[simp] theorem State.finish_pend (e : ErrCode) (s : State) : (s.finish e).pend = s.pend := rfl
@[simp] theorem State.finish_errcode (e : ErrCode) (s : State) : (s.finish e).errcode = e := rfl
@[simp] theorem State.finish_tblValid (e : ErrCode) (s : State) : (s.finish e).tblValid = s.tblValid := rfl
@[simp] theorem State.finish_tblLoading (e : ErrCode) (s : State) : (s.finish e).tblLoading = s.tblLoading := rfl
@[simp] theorem State.finish_hexPend (e : ErrCode) (s : State) : (s.finish e).hexPend = s.hexPend := rfl
@[simp] theorem State.finish_nib (e : ErrCode) (s : State) : (s.finish e).nib = s.nib := rfl
@[simp] theorem State.finish_inFault (e : ErrCode) (s : State) : (s.finish e).inFault = s.inFault := rfl
@[simp] theorem State.finish_overrun (e : ErrCode) (s : State) : (s.finish e).overrun = s.overrun := rfl
@[simp] theorem State.finish_outKind (e : ErrCode) (s : State) : (s.finish e).outKind = s.outKind := rfl
@[simp] theorem State.finish_inCount (e : ErrCode) (s : State) : (s.finish e).inCount = s.inCount := rfl
@[simp] theorem State.finish_target (e : ErrCode) (s : State) : (s.finish e).target = s.target := rfl
@[simp] theorem State.finish_count (e : ErrCode) (s : State) : (s.finish e).count = s.count := rfl
@[simp] theorem State.finish_excess (e : ErrCode) (s : State) : (s.finish e).excess = s.excess := rfl
@[simp] theorem State.finish_data (e : ErrCode) (s : State) : (s.finish e).data = s.data := rfl
@[simp] theorem State.finish_outCount (e : ErrCode) (s : State) : (s.finish e).outCount = s.outCount := rfl
@[simp] theorem State.finish_outIndex (e : ErrCode) (s : State) : (s.finish e).outIndex = s.outIndex := rfl
@[simp] theorem State.finish_lkResult (e : ErrCode) (s : State) : (s.finish e).lkResult = s.lkResult := rfl
@[simp] theorem State.finish_inBuf (e : ErrCode) (s : State) : (s.finish e).inBuf = s.inBuf := rfl
@[simp] theorem State.finish_ck (e : ErrCode) (s : State) : (s.finish e).ck = s.ck := rfl
@[simp] theorem State.finish_wd (e : ErrCode) (s : State) : (s.finish e).wd = s.wd := rfl
@[simp] theorem State.finish_tbl (e : ErrCode) (s : State) : (s.finish e).tbl = s.tbl := rfl
@[simp] theorem State.finish_program (e : ErrCode) (s : State) : (s.finish e).program = s.program := rfl
@[simp] theorem State.finish_turns (e : ErrCode) (s : State) : (s.finish e).turns = s.turns := rfl
@[simp] theorem State.finish_waited (e : ErrCode) (s : State) : (s.finish e).waited = s.waited := rfl
@[simp] theorem State.finish_engineTurns (e : ErrCode) (s : State) : (s.finish e).engineTurns = s.engineTurns := rfl
@[simp] theorem State.finish_replies (e : ErrCode) (s : State) : (s.finish e).replies = s.replies := rfl
@[simp] theorem State.finish_draws (e : ErrCode) (s : State) : (s.finish e).draws = s.draws := rfl

/-! ### `State.done` -/

@[simp] theorem State.done_pend (s : State) : (s.done).pend = s.pend := rfl
@[simp] theorem State.done_errcode (s : State) : (s.done).errcode = .success := rfl
@[simp] theorem State.done_tblValid (s : State) : (s.done).tblValid = s.tblValid := rfl
@[simp] theorem State.done_tblLoading (s : State) : (s.done).tblLoading = s.tblLoading := rfl
@[simp] theorem State.done_hexPend (s : State) : (s.done).hexPend = s.hexPend := rfl
@[simp] theorem State.done_nib (s : State) : (s.done).nib = s.nib := rfl
@[simp] theorem State.done_inFault (s : State) : (s.done).inFault = s.inFault := rfl
@[simp] theorem State.done_overrun (s : State) : (s.done).overrun = s.overrun := rfl
@[simp] theorem State.done_outKind (s : State) : (s.done).outKind = s.outKind := rfl
@[simp] theorem State.done_inCount (s : State) : (s.done).inCount = s.inCount := rfl
@[simp] theorem State.done_target (s : State) : (s.done).target = s.target := rfl
@[simp] theorem State.done_count (s : State) : (s.done).count = s.count := rfl
@[simp] theorem State.done_excess (s : State) : (s.done).excess = s.excess := rfl
@[simp] theorem State.done_data (s : State) : (s.done).data = s.data := rfl
@[simp] theorem State.done_outCount (s : State) : (s.done).outCount = s.outCount := rfl
@[simp] theorem State.done_outIndex (s : State) : (s.done).outIndex = s.outIndex := rfl
@[simp] theorem State.done_lkResult (s : State) : (s.done).lkResult = s.lkResult := rfl
@[simp] theorem State.done_inBuf (s : State) : (s.done).inBuf = s.inBuf := rfl
@[simp] theorem State.done_ck (s : State) : (s.done).ck = s.ck := rfl
@[simp] theorem State.done_wd (s : State) : (s.done).wd = s.wd := rfl
@[simp] theorem State.done_tbl (s : State) : (s.done).tbl = s.tbl := rfl
@[simp] theorem State.done_program (s : State) : (s.done).program = s.program := rfl
@[simp] theorem State.done_turns (s : State) : (s.done).turns = s.turns := rfl
@[simp] theorem State.done_waited (s : State) : (s.done).waited = s.waited := rfl
@[simp] theorem State.done_engineTurns (s : State) : (s.done).engineTurns = s.engineTurns := rfl
@[simp] theorem State.done_replies (s : State) : (s.done).replies = s.replies := rfl
@[simp] theorem State.done_draws (s : State) : (s.done).draws = s.draws := rfl

/-! ### `State.raise` -/

@[simp] theorem State.raise_pend (e : ErrCode) (s : State) : (s.raise e).pend = s.pend := rfl
@[simp] theorem State.raise_errcode (e : ErrCode) (s : State) : (s.raise e).errcode = e := rfl
@[simp] theorem State.raise_tblValid (e : ErrCode) (s : State) : (s.raise e).tblValid = s.tblValid := rfl
@[simp] theorem State.raise_tblLoading (e : ErrCode) (s : State) : (s.raise e).tblLoading = s.tblLoading := rfl
@[simp] theorem State.raise_hexPend (e : ErrCode) (s : State) : (s.raise e).hexPend = s.hexPend := rfl
@[simp] theorem State.raise_nib (e : ErrCode) (s : State) : (s.raise e).nib = s.nib := rfl
@[simp] theorem State.raise_inFault (e : ErrCode) (s : State) : (s.raise e).inFault = s.inFault := rfl
@[simp] theorem State.raise_overrun (e : ErrCode) (s : State) : (s.raise e).overrun = s.overrun := rfl
@[simp] theorem State.raise_outKind (e : ErrCode) (s : State) : (s.raise e).outKind = s.outKind := rfl
@[simp] theorem State.raise_inCount (e : ErrCode) (s : State) : (s.raise e).inCount = s.inCount := rfl
@[simp] theorem State.raise_target (e : ErrCode) (s : State) : (s.raise e).target = s.target := rfl
@[simp] theorem State.raise_count (e : ErrCode) (s : State) : (s.raise e).count = s.count := rfl
@[simp] theorem State.raise_excess (e : ErrCode) (s : State) : (s.raise e).excess = s.excess := rfl
@[simp] theorem State.raise_data (e : ErrCode) (s : State) : (s.raise e).data = s.data := rfl
@[simp] theorem State.raise_outCount (e : ErrCode) (s : State) : (s.raise e).outCount = s.outCount := rfl
@[simp] theorem State.raise_outIndex (e : ErrCode) (s : State) : (s.raise e).outIndex = s.outIndex := rfl
@[simp] theorem State.raise_lkResult (e : ErrCode) (s : State) : (s.raise e).lkResult = s.lkResult := rfl
@[simp] theorem State.raise_inBuf (e : ErrCode) (s : State) : (s.raise e).inBuf = s.inBuf := rfl
@[simp] theorem State.raise_ck (e : ErrCode) (s : State) : (s.raise e).ck = s.ck := rfl
@[simp] theorem State.raise_wd (e : ErrCode) (s : State) : (s.raise e).wd = s.wd := rfl
@[simp] theorem State.raise_tbl (e : ErrCode) (s : State) : (s.raise e).tbl = s.tbl := rfl
@[simp] theorem State.raise_program (e : ErrCode) (s : State) : (s.raise e).program = s.program := rfl
@[simp] theorem State.raise_turns (e : ErrCode) (s : State) : (s.raise e).turns = s.turns := rfl
@[simp] theorem State.raise_waited (e : ErrCode) (s : State) : (s.raise e).waited = s.waited := rfl
@[simp] theorem State.raise_engineTurns (e : ErrCode) (s : State) : (s.raise e).engineTurns = s.engineTurns := rfl
@[simp] theorem State.raise_replies (e : ErrCode) (s : State) : (s.raise e).replies = s.replies := rfl
@[simp] theorem State.raise_draws (e : ErrCode) (s : State) : (s.raise e).draws = s.draws := rfl

/-! ### `State.retire` -/

@[simp] theorem State.retire_pend (s : State) : (s.retire).pend = none := rfl
@[simp] theorem State.retire_errcode (s : State) : (s.retire).errcode = s.errcode := rfl
@[simp] theorem State.retire_tblValid (s : State) : (s.retire).tblValid = s.tblValid := rfl
@[simp] theorem State.retire_tblLoading (s : State) : (s.retire).tblLoading = s.tblLoading := rfl
@[simp] theorem State.retire_hexPend (s : State) : (s.retire).hexPend = s.hexPend := rfl
@[simp] theorem State.retire_nib (s : State) : (s.retire).nib = s.nib := rfl
@[simp] theorem State.retire_inFault (s : State) : (s.retire).inFault = s.inFault := rfl
@[simp] theorem State.retire_overrun (s : State) : (s.retire).overrun = s.overrun := rfl
@[simp] theorem State.retire_outKind (s : State) : (s.retire).outKind = s.outKind := rfl
@[simp] theorem State.retire_inCount (s : State) : (s.retire).inCount = s.inCount := rfl
@[simp] theorem State.retire_target (s : State) : (s.retire).target = s.target := rfl
@[simp] theorem State.retire_count (s : State) : (s.retire).count = s.count := rfl
@[simp] theorem State.retire_excess (s : State) : (s.retire).excess = s.excess := rfl
@[simp] theorem State.retire_data (s : State) : (s.retire).data = s.data := rfl
@[simp] theorem State.retire_outCount (s : State) : (s.retire).outCount = s.outCount := rfl
@[simp] theorem State.retire_outIndex (s : State) : (s.retire).outIndex = s.outIndex := rfl
@[simp] theorem State.retire_lkResult (s : State) : (s.retire).lkResult = s.lkResult := rfl
@[simp] theorem State.retire_inBuf (s : State) : (s.retire).inBuf = s.inBuf := rfl
@[simp] theorem State.retire_ck (s : State) : (s.retire).ck = s.ck := rfl
@[simp] theorem State.retire_wd (s : State) : (s.retire).wd = s.wd := rfl
@[simp] theorem State.retire_tbl (s : State) : (s.retire).tbl = s.tbl := rfl
@[simp] theorem State.retire_program (s : State) : (s.retire).program = s.program := rfl
@[simp] theorem State.retire_turns (s : State) : (s.retire).turns = s.turns := rfl
@[simp] theorem State.retire_waited (s : State) : (s.retire).waited = s.waited := rfl
@[simp] theorem State.retire_engineTurns (s : State) : (s.retire).engineTurns = s.engineTurns := rfl
@[simp] theorem State.retire_replies (s : State) : (s.retire).replies = s.replies := rfl
@[simp] theorem State.retire_draws (s : State) : (s.retire).draws = s.draws := rfl

/-! ### `State.storeChecksums` -/

@[simp] theorem State.storeChecksums_pend (k : OutKind) (cs : List Byte) (s : State) : (s.storeChecksums k cs).pend = s.pend := rfl
@[simp] theorem State.storeChecksums_errcode (k : OutKind) (cs : List Byte) (s : State) : (s.storeChecksums k cs).errcode = s.errcode := rfl
@[simp] theorem State.storeChecksums_tblValid (k : OutKind) (cs : List Byte) (s : State) : (s.storeChecksums k cs).tblValid = s.tblValid := rfl
@[simp] theorem State.storeChecksums_tblLoading (k : OutKind) (cs : List Byte) (s : State) : (s.storeChecksums k cs).tblLoading = s.tblLoading := rfl
@[simp] theorem State.storeChecksums_hexPend (k : OutKind) (cs : List Byte) (s : State) : (s.storeChecksums k cs).hexPend = s.hexPend := rfl
@[simp] theorem State.storeChecksums_nib (k : OutKind) (cs : List Byte) (s : State) : (s.storeChecksums k cs).nib = s.nib := rfl
@[simp] theorem State.storeChecksums_inFault (k : OutKind) (cs : List Byte) (s : State) : (s.storeChecksums k cs).inFault = s.inFault := rfl
@[simp] theorem State.storeChecksums_overrun (k : OutKind) (cs : List Byte) (s : State) : (s.storeChecksums k cs).overrun = s.overrun := rfl
@[simp] theorem State.storeChecksums_outKind (k : OutKind) (cs : List Byte) (s : State) : (s.storeChecksums k cs).outKind = k := rfl
@[simp] theorem State.storeChecksums_inCount (k : OutKind) (cs : List Byte) (s : State) : (s.storeChecksums k cs).inCount = s.inCount := rfl
@[simp] theorem State.storeChecksums_target (k : OutKind) (cs : List Byte) (s : State) : (s.storeChecksums k cs).target = s.target := rfl
@[simp] theorem State.storeChecksums_count (k : OutKind) (cs : List Byte) (s : State) : (s.storeChecksums k cs).count = s.count := rfl
@[simp] theorem State.storeChecksums_excess (k : OutKind) (cs : List Byte) (s : State) : (s.storeChecksums k cs).excess = s.excess := rfl
@[simp] theorem State.storeChecksums_data (k : OutKind) (cs : List Byte) (s : State) : (s.storeChecksums k cs).data = s.data := rfl
@[simp] theorem State.storeChecksums_outCount (k : OutKind) (cs : List Byte) (s : State) : (s.storeChecksums k cs).outCount = s.target := rfl
@[simp] theorem State.storeChecksums_outIndex (k : OutKind) (cs : List Byte) (s : State) : (s.storeChecksums k cs).outIndex = s.outIndex := rfl
@[simp] theorem State.storeChecksums_lkResult (k : OutKind) (cs : List Byte) (s : State) : (s.storeChecksums k cs).lkResult = s.lkResult := rfl
@[simp] theorem State.storeChecksums_inBuf (k : OutKind) (cs : List Byte) (s : State) : (s.storeChecksums k cs).inBuf = s.inBuf := rfl
@[simp] theorem State.storeChecksums_ck (k : OutKind) (cs : List Byte) (s : State) : (s.storeChecksums k cs).ck = Cells.setFrom s.ck 0 cs := rfl
@[simp] theorem State.storeChecksums_wd (k : OutKind) (cs : List Byte) (s : State) : (s.storeChecksums k cs).wd = s.wd := rfl
@[simp] theorem State.storeChecksums_tbl (k : OutKind) (cs : List Byte) (s : State) : (s.storeChecksums k cs).tbl = s.tbl := rfl
@[simp] theorem State.storeChecksums_program (k : OutKind) (cs : List Byte) (s : State) : (s.storeChecksums k cs).program = s.program := rfl
@[simp] theorem State.storeChecksums_turns (k : OutKind) (cs : List Byte) (s : State) : (s.storeChecksums k cs).turns = s.turns := rfl
@[simp] theorem State.storeChecksums_waited (k : OutKind) (cs : List Byte) (s : State) : (s.storeChecksums k cs).waited = s.waited := rfl
@[simp] theorem State.storeChecksums_engineTurns (k : OutKind) (cs : List Byte) (s : State) : (s.storeChecksums k cs).engineTurns = s.engineTurns := rfl
@[simp] theorem State.storeChecksums_replies (k : OutKind) (cs : List Byte) (s : State) : (s.storeChecksums k cs).replies = s.replies := rfl
@[simp] theorem State.storeChecksums_draws (k : OutKind) (cs : List Byte) (s : State) : (s.storeChecksums k cs).draws = s.draws := rfl

/-! ### `State.storeWords` -/

@[simp] theorem State.storeWords_pend (cs : List Byte) (s : State) : (s.storeWords cs).pend = s.pend := rfl
@[simp] theorem State.storeWords_errcode (cs : List Byte) (s : State) : (s.storeWords cs).errcode = s.errcode := rfl
@[simp] theorem State.storeWords_tblValid (cs : List Byte) (s : State) : (s.storeWords cs).tblValid = s.tblValid := rfl
@[simp] theorem State.storeWords_tblLoading (cs : List Byte) (s : State) : (s.storeWords cs).tblLoading = s.tblLoading := rfl
@[simp] theorem State.storeWords_hexPend (cs : List Byte) (s : State) : (s.storeWords cs).hexPend = s.hexPend := rfl
@[simp] theorem State.storeWords_nib (cs : List Byte) (s : State) : (s.storeWords cs).nib = s.nib := rfl
@[simp] theorem State.storeWords_inFault (cs : List Byte) (s : State) : (s.storeWords cs).inFault = s.inFault := rfl
@[simp] theorem State.storeWords_overrun (cs : List Byte) (s : State) : (s.storeWords cs).overrun = s.overrun := rfl
@[simp] theorem State.storeWords_outKind (cs : List Byte) (s : State) : (s.storeWords cs).outKind = s.outKind := rfl
@[simp] theorem State.storeWords_inCount (cs : List Byte) (s : State) : (s.storeWords cs).inCount = s.inCount := rfl
@[simp] theorem State.storeWords_target (cs : List Byte) (s : State) : (s.storeWords cs).target = s.target := rfl
@[simp] theorem State.storeWords_count (cs : List Byte) (s : State) : (s.storeWords cs).count = s.count := rfl
@[simp] theorem State.storeWords_excess (cs : List Byte) (s : State) : (s.storeWords cs).excess = s.excess := rfl
@[simp] theorem State.storeWords_data (cs : List Byte) (s : State) : (s.storeWords cs).data = s.data := rfl
@[simp] theorem State.storeWords_outCount (cs : List Byte) (s : State) : (s.storeWords cs).outCount = s.outCount := rfl
@[simp] theorem State.storeWords_outIndex (cs : List Byte) (s : State) : (s.storeWords cs).outIndex = s.outIndex := rfl
@[simp] theorem State.storeWords_lkResult (cs : List Byte) (s : State) : (s.storeWords cs).lkResult = s.lkResult := rfl
@[simp] theorem State.storeWords_inBuf (cs : List Byte) (s : State) : (s.storeWords cs).inBuf = s.inBuf := rfl
@[simp] theorem State.storeWords_ck (cs : List Byte) (s : State) : (s.storeWords cs).ck = s.ck := rfl
@[simp] theorem State.storeWords_wd (cs : List Byte) (s : State) : (s.storeWords cs).wd = Cells.setFrom s.wd 0 (cs.map (word s)) := rfl
@[simp] theorem State.storeWords_tbl (cs : List Byte) (s : State) : (s.storeWords cs).tbl = s.tbl := rfl
@[simp] theorem State.storeWords_program (cs : List Byte) (s : State) : (s.storeWords cs).program = s.program := rfl
@[simp] theorem State.storeWords_turns (cs : List Byte) (s : State) : (s.storeWords cs).turns = s.turns := rfl
@[simp] theorem State.storeWords_waited (cs : List Byte) (s : State) : (s.storeWords cs).waited = s.waited := rfl
@[simp] theorem State.storeWords_engineTurns (cs : List Byte) (s : State) : (s.storeWords cs).engineTurns = s.engineTurns := rfl
@[simp] theorem State.storeWords_replies (cs : List Byte) (s : State) : (s.storeWords cs).replies = s.replies := rfl
@[simp] theorem State.storeWords_draws (cs : List Byte) (s : State) : (s.storeWords cs).draws = s.draws := rfl

/-! ### `State.dropWrite` -/

@[simp] theorem State.dropWrite_pend (s : State) : (s.dropWrite).pend = s.pend := rfl
@[simp] theorem State.dropWrite_errcode (s : State) : (s.dropWrite).errcode = s.errcode := rfl
@[simp] theorem State.dropWrite_tblValid (s : State) : (s.dropWrite).tblValid = s.tblValid := rfl
@[simp] theorem State.dropWrite_tblLoading (s : State) : (s.dropWrite).tblLoading = s.tblLoading := rfl
@[simp] theorem State.dropWrite_hexPend (s : State) : (s.dropWrite).hexPend = s.hexPend := rfl
@[simp] theorem State.dropWrite_nib (s : State) : (s.dropWrite).nib = s.nib := rfl
@[simp] theorem State.dropWrite_inFault (s : State) : (s.dropWrite).inFault = s.inFault := rfl
@[simp] theorem State.dropWrite_overrun (s : State) : (s.dropWrite).overrun = true := rfl
@[simp] theorem State.dropWrite_outKind (s : State) : (s.dropWrite).outKind = s.outKind := rfl
@[simp] theorem State.dropWrite_inCount (s : State) : (s.dropWrite).inCount = s.inCount := rfl
@[simp] theorem State.dropWrite_target (s : State) : (s.dropWrite).target = s.target := rfl
@[simp] theorem State.dropWrite_count (s : State) : (s.dropWrite).count = s.count := rfl
@[simp] theorem State.dropWrite_excess (s : State) : (s.dropWrite).excess = s.excess := rfl
@[simp] theorem State.dropWrite_data (s : State) : (s.dropWrite).data = s.data := rfl
@[simp] theorem State.dropWrite_outCount (s : State) : (s.dropWrite).outCount = s.outCount := rfl
@[simp] theorem State.dropWrite_outIndex (s : State) : (s.dropWrite).outIndex = s.outIndex := rfl
@[simp] theorem State.dropWrite_lkResult (s : State) : (s.dropWrite).lkResult = s.lkResult := rfl
@[simp] theorem State.dropWrite_inBuf (s : State) : (s.dropWrite).inBuf = s.inBuf := rfl
@[simp] theorem State.dropWrite_ck (s : State) : (s.dropWrite).ck = s.ck := rfl
@[simp] theorem State.dropWrite_wd (s : State) : (s.dropWrite).wd = s.wd := rfl
@[simp] theorem State.dropWrite_tbl (s : State) : (s.dropWrite).tbl = s.tbl := rfl
@[simp] theorem State.dropWrite_program (s : State) : (s.dropWrite).program = s.program := rfl
@[simp] theorem State.dropWrite_turns (s : State) : (s.dropWrite).turns = s.turns := rfl
@[simp] theorem State.dropWrite_waited (s : State) : (s.dropWrite).waited = s.waited := rfl
@[simp] theorem State.dropWrite_engineTurns (s : State) : (s.dropWrite).engineTurns = s.engineTurns := rfl
@[simp] theorem State.dropWrite_replies (s : State) : (s.dropWrite).replies = s.replies := rfl
@[simp] theorem State.dropWrite_draws (s : State) : (s.dropWrite).draws = s.draws := rfl

/-! ### `State.withTableOf` -/

@[simp] theorem State.withTableOf_pend (s u : State) : (s.withTableOf u).pend = s.pend := rfl
@[simp] theorem State.withTableOf_errcode (s u : State) : (s.withTableOf u).errcode = s.errcode := rfl
@[simp] theorem State.withTableOf_tblValid (s u : State) : (s.withTableOf u).tblValid = u.tblValid := rfl
@[simp] theorem State.withTableOf_tblLoading (s u : State) : (s.withTableOf u).tblLoading = u.tblLoading := rfl
@[simp] theorem State.withTableOf_hexPend (s u : State) : (s.withTableOf u).hexPend = s.hexPend := rfl
@[simp] theorem State.withTableOf_nib (s u : State) : (s.withTableOf u).nib = s.nib := rfl
@[simp] theorem State.withTableOf_inFault (s u : State) : (s.withTableOf u).inFault = s.inFault := rfl
@[simp] theorem State.withTableOf_overrun (s u : State) : (s.withTableOf u).overrun = s.overrun := rfl
@[simp] theorem State.withTableOf_outKind (s u : State) : (s.withTableOf u).outKind = s.outKind := rfl
@[simp] theorem State.withTableOf_inCount (s u : State) : (s.withTableOf u).inCount = s.inCount := rfl
@[simp] theorem State.withTableOf_target (s u : State) : (s.withTableOf u).target = s.target := rfl
@[simp] theorem State.withTableOf_count (s u : State) : (s.withTableOf u).count = u.count := rfl
@[simp] theorem State.withTableOf_excess (s u : State) : (s.withTableOf u).excess = u.excess := rfl
@[simp] theorem State.withTableOf_data (s u : State) : (s.withTableOf u).data = s.data := rfl
@[simp] theorem State.withTableOf_outCount (s u : State) : (s.withTableOf u).outCount = s.outCount := rfl
@[simp] theorem State.withTableOf_outIndex (s u : State) : (s.withTableOf u).outIndex = s.outIndex := rfl
@[simp] theorem State.withTableOf_lkResult (s u : State) : (s.withTableOf u).lkResult = s.lkResult := rfl
@[simp] theorem State.withTableOf_inBuf (s u : State) : (s.withTableOf u).inBuf = s.inBuf := rfl
@[simp] theorem State.withTableOf_ck (s u : State) : (s.withTableOf u).ck = s.ck := rfl
@[simp] theorem State.withTableOf_wd (s u : State) : (s.withTableOf u).wd = s.wd := rfl
@[simp] theorem State.withTableOf_tbl (s u : State) : (s.withTableOf u).tbl = u.tbl := rfl
@[simp] theorem State.withTableOf_program (s u : State) : (s.withTableOf u).program = s.program := rfl
@[simp] theorem State.withTableOf_turns (s u : State) : (s.withTableOf u).turns = s.turns := rfl
@[simp] theorem State.withTableOf_waited (s u : State) : (s.withTableOf u).waited = s.waited := rfl
@[simp] theorem State.withTableOf_engineTurns (s u : State) : (s.withTableOf u).engineTurns = s.engineTurns := rfl
@[simp] theorem State.withTableOf_replies (s u : State) : (s.withTableOf u).replies = s.replies := rfl
@[simp] theorem State.withTableOf_draws (s u : State) : (s.withTableOf u).draws = s.draws := rfl

end Sys2Proof.Machine
end

