-- ==== Sys2Proof/Laws/Cells.lean ====
section
/-! SUPPORT. The laws of the arrays: a read after a write, other elements unchanged, the canonical form and the bound kept
by every write. -/

namespace Sys2Proof.Machine

variable {w : Nat}

@[simp] theorem Cells.get_nil (k : Nat) : Cells.get ([] : Cells w) k = 0 := rfl

theorem Cells.get_cons (j : Nat) (v : BitVec w) (c : Cells w) (k : Nat) :
    Cells.get ((j, v) :: c) k = if j = k then v else Cells.get c k := rfl

theorem Cells.wfFrom_cons (lo j : Nat) (v : BitVec w) (c : Cells w) :
    Cells.wfFrom lo ((j, v) :: c) = true ↔ lo ≤ j ∧ v ≠ 0 ∧ Cells.wfFrom (j + 1) c = true := by
  rw [Cells.wfFrom, Bool.and_eq_true, Bool.and_eq_true, decide_eq_true_eq, decide_eq_true_eq, and_assoc]
  rfl

theorem Cells.wfFrom_mono {lo lo' : Nat} (c : Cells w) (h : lo' ≤ lo) (hc : Cells.wfFrom lo c = true) :
    Cells.wfFrom lo' c = true := by
  cases c with
  | nil => rfl
  | cons p c =>
    obtain ⟨j, v⟩ := p
    rw [Cells.wfFrom_cons] at hc ⊢
    exact ⟨by omega, hc.2⟩

/-- In canonical form nothing is listed below the bound. -/
theorem Cells.get_of_wfFrom {lo k : Nat} (c : Cells w) (hc : Cells.wfFrom lo c = true) (hk : k < lo) :
    Cells.get c k = 0 := by
  induction c generalizing lo with
  | nil => rfl
  | cons p c ih =>
    obtain ⟨j, v⟩ := p
    rw [Cells.wfFrom_cons] at hc
    rw [Cells.get_cons, if_neg (by omega)]
    exact ih hc.2.2 (by omega)

theorem Cells.get_put_of_ne {j k : Nat} (v : BitVec w) (c : Cells w) (h : j ≠ k) :
    Cells.get (Cells.put k v c) j = Cells.get c j := by
  unfold Cells.put
  split
  · rfl
  · rw [Cells.get_cons, if_neg (fun e => h e.symm)]

theorem Cells.get_put_self {lo k : Nat} (v : BitVec w) (c : Cells w) (hc : Cells.wfFrom lo c = true) (hk : k < lo) :
    Cells.get (Cells.put k v c) k = v := by
  unfold Cells.put
  split
  · next h => rw [Cells.get_of_wfFrom c hc hk, h]; rfl
  · simp [Cells.get_cons]

theorem Cells.wfFrom_put {lo k : Nat} (v : BitVec w) (c : Cells w) (hl : lo ≤ k)
    (hc : Cells.wfFrom (k + 1) c = true) : Cells.wfFrom lo (Cells.put k v c) = true := by
  unfold Cells.put
  split
  · exact Cells.wfFrom_mono c (by omega) hc
  · next h => exact (Cells.wfFrom_cons ..).2 ⟨hl, h, hc⟩

/-- A write leaves every other element alone. -/
theorem Cells.get_set_of_ne {j k : Nat} (c : Cells w) (v : BitVec w) (h : j ≠ k) :
    Cells.get (Cells.set c k v) j = Cells.get c j := by
  induction c with
  | nil => exact Cells.get_put_of_ne v [] h
  | cons p c ih =>
    obtain ⟨i, u⟩ := p
    simp only [Cells.set]
    split
    · exact Cells.get_put_of_ne v _ h
    · split
      · rw [Cells.get_put_of_ne v c h, Cells.get_cons, if_neg (by omega)]
      · rw [Cells.get_cons, Cells.get_cons, ih]

theorem Cells.get_set_self_from {lo k : Nat} (c : Cells w) (v : BitVec w) (hc : Cells.wfFrom lo c = true) :
    Cells.get (Cells.set c k v) k = v := by
  induction c generalizing lo with
  | nil => exact Cells.get_put_self (lo := k + 1) v [] rfl (by omega)
  | cons p c ih =>
    obtain ⟨i, u⟩ := p
    have hc' := (Cells.wfFrom_cons ..).1 hc
    simp only [Cells.set]
    split
    · next h => exact Cells.get_put_self (lo := i) v _ ((Cells.wfFrom_cons ..).2 ⟨le_refl i, hc'.2⟩) h
    · split
      · next h => exact Cells.get_put_self v c hc'.2.2 (by omega)
      · next h => rw [Cells.get_cons, if_neg (fun e => h e.symm)]; exact ih hc'.2.2

/-- A read after a write gives the value written. -/
theorem Cells.get_set_self {k : Nat} (c : Cells w) (v : BitVec w) (hc : Cells.wf c = true) :
    Cells.get (Cells.set c k v) k = v := Cells.get_set_self_from c v hc

theorem Cells.wfFrom_set {lo k : Nat} (c : Cells w) (v : BitVec w) (hl : lo ≤ k) (hc : Cells.wfFrom lo c = true) :
    Cells.wfFrom lo (Cells.set c k v) = true := by
  induction c generalizing lo with
  | nil => exact Cells.wfFrom_put v [] hl rfl
  | cons p c ih =>
    obtain ⟨i, u⟩ := p
    have hc' := (Cells.wfFrom_cons ..).1 hc
    simp only [Cells.set]
    split
    · next h => exact Cells.wfFrom_put v _ hl ((Cells.wfFrom_cons ..).2 ⟨by omega, hc'.2⟩)
    · split
      · next h => exact Cells.wfFrom_put v c hl (h ▸ hc'.2.2)
      · next h h' => exact (Cells.wfFrom_cons ..).2 ⟨hc'.1, hc'.2.1, ih (by omega) hc'.2.2⟩

/-- A write keeps the canonical form. -/
theorem Cells.wf_set {k : Nat} (c : Cells w) (v : BitVec w) (hc : Cells.wf c = true) :
    Cells.wf (Cells.set c k v) = true := Cells.wfFrom_set c v (Nat.zero_le k) hc

theorem Cells.within_put {n k : Nat} (c : Cells w) (v : BitVec w) (hk : k < n) (hc : Cells.within n c = true) :
    Cells.within n (Cells.put k v c) = true := by
  unfold Cells.put
  split
  · exact hc
  · simpa [Cells.within, hk] using hc

/-- A write inside the array lists nothing outside it. -/
theorem Cells.within_set {n k : Nat} (c : Cells w) (v : BitVec w) (hk : k < n) (hc : Cells.within n c = true) :
    Cells.within n (Cells.set c k v) = true := by
  induction c with
  | nil => exact Cells.within_put [] v hk hc
  | cons p c ih =>
    obtain ⟨i, u⟩ := p
    have hc' : i < n ∧ Cells.within n c = true := by simpa [Cells.within] using hc
    simp only [Cells.set]
    split
    · exact Cells.within_put _ v hk hc
    · split
      · exact Cells.within_put c v hk hc'.2
      · simpa [Cells.within, hc'.1] using ih hc'.2

theorem Cells.wf_setFrom (vs : List (BitVec w)) (c : Cells w) (k : Nat) (hc : Cells.wf c = true) :
    Cells.wf (Cells.setFrom c k vs) = true := by
  induction vs generalizing c k with
  | nil => exact hc
  | cons v vs ih => exact ih _ _ (Cells.wf_set c v hc)

theorem Cells.within_setFrom {n : Nat} (vs : List (BitVec w)) (c : Cells w) (k : Nat) (hk : k + vs.length ≤ n)
    (hc : Cells.within n c = true) : Cells.within n (Cells.setFrom c k vs) = true := by
  induction vs generalizing c k with
  | nil => exact hc
  | cons v vs ih =>
    rw [List.length_cons] at hk
    exact ih _ _ (by omega) (Cells.within_set c v (by omega) hc)

/-- Writing a run of elements leaves those outside it alone. -/
theorem Cells.get_setFrom_outside (vs : List (BitVec w)) (c : Cells w) (k j : Nat)
    (hj : j < k ∨ k + vs.length ≤ j) : Cells.get (Cells.setFrom c k vs) j = Cells.get c j := by
  induction vs generalizing c k with
  | nil => rfl
  | cons v vs ih =>
    rw [List.length_cons] at hj
    rw [Cells.setFrom, ih _ _ (by omega), Cells.get_set_of_ne c v (by omega)]

/-- Writing a run of elements: element `k + i` holds the i-th value. -/
theorem Cells.get_setFrom_inside (vs : List (BitVec w)) (c : Cells w) (k i : Nat) (hc : Cells.wf c = true)
    (hi : i < vs.length) : Cells.get (Cells.setFrom c k vs) (k + i) = vs[i] := by
  induction vs generalizing c k i with
  | nil => simp at hi
  | cons v vs ih =>
    rw [Cells.setFrom]
    cases i with
    | zero =>
      rw [Cells.get_setFrom_outside vs _ _ _ (by omega)]
      exact Cells.get_set_self c v hc
    | succ i =>
      rw [List.length_cons] at hi
      have := ih (Cells.set c k v) (k + 1) i (Cells.wf_set c v hc) (by omega)
      rw [show k + (i + 1) = k + 1 + i by omega]
      exact this

end Sys2Proof.Machine
end

