-- ==== Sys2Proof/Laws/Ops.lean ====
section
/-! SUPPORT. The parameters' bounds, and for each shared operation what it can do. -/

namespace Sys2Proof.Machine

/-- 1 ≤ MAX_N (R7). -/
theorem maxN_pos : 1 ≤ maxN := Nat.succ_le_succ (Nat.zero_le _)

/-- MAX_N ≤ 0xFFFFFF (R7). -/
theorem maxN_le : maxN ≤ 0xFFFFFF := Config.maxNLessOne.isLt

/-- BASE is a multiple of 64 (R11). -/
theorem base_mod : base % 64 = 0 := Nat.mul_mod_right 64 Config.baseIndex

/-- A bit of a word with a field put at `lo`. -/
theorem getLsbD_bitsAt {w : Nat} (lo : Nat) (v : BitVec w) (k : Nat) :
    (bitsAt lo v).getLsbD k = (decide (k < 32) && decide (lo ≤ k) && v.getLsbD (k - lo)) := by
  rw [bitsAt, BitVec.getLsbD_shiftLeft, BitVec.getLsbD_setWidth]
  by_cases hk : k < 32
  · by_cases hl : lo ≤ k
    · simp [hk, hl, show ¬k < lo by omega, show k - lo < 32 by omega]
    · simp [hk, hl, show k < lo by omega]
  · simp [hk]

/-- The two things `append` can do (R141). -/
theorem State.append_cases (b : Byte) (s : State) :
    (s.inCount < maxN ∧
      s.append b = State.done { s with inBuf := Cells.set s.inBuf s.inCount b, inCount := s.inCount + 1 }) ∨
    (maxN ≤ s.inCount ∧ s.append b = State.raise .inputOverflow { s with inFault := .overflow }) := by
  unfold State.append
  split
  · next h => exact .inl ⟨h, rfl⟩
  · next h => exact .inr ⟨by omega, rfl⟩

/-- The two things one more entry can do (R122). -/
theorem State.addEntry_cases (s : State) :
    (∃ h : s.count < 256, s.addEntry = { s with tbl := s.tbl.set s.count s.data h, count := s.count + 1 }) ∨
    (256 ≤ s.count ∧ s.addEntry = { s with excess := true }) := by
  unfold State.addEntry
  split
  · next h => exact .inl ⟨h, rfl⟩
  · next h => exact .inr ⟨by omega, rfl⟩

/-- The two things the second or first digit of a pair can do (R143). -/
theorem State.pushNibble_cases (v : BitVec 4) (s : State) :
    (s.hexPend = true ∧ s.pushNibble v = State.append (pairByte s.nib v) { s with hexPend := false }) ∨
    (s.hexPend = false ∧ s.pushNibble v = State.done { s with nib := v, hexPend := true }) := by
  unfold State.pushNibble
  split
  · next h => exact .inl ⟨h, rfl⟩
  · next h => exact .inr ⟨by simpa using h, rfl⟩

/-- The checks of COMPRESS find nothing exactly when the input is ready (R147, R165, R213). -/
theorem inputError_eq_none (s : State) : inputError s = none ↔ InputReady s := by
  have ht : s.target = 0#24 ↔ s.target.toNat = 0 := by
    rw [← BitVec.toNat_inj]; rfl
  unfold inputError digestBad digestOverflow InputReady
  cases s.inFault <;> cases s.hexPend <;> simp
  split_ifs with h0 h1 <;> rw [ht] at h0 <;> simp <;> omega

/-- How a read that R49 leaves open moves the state: one more value drawn, nothing else (R76). -/
theorem regRead_state (r : Reg) (s : State) :
    (regRead r s).2 = s ∨ (regRead r s).2 = { s with draws := s.draws + 1 } := by
  unfold regRead
  split
  · exact .inr rfl
  · exact .inl rfl

/-- A read while BUSY = 0 gives the register's value and changes nothing (R76, R79). -/
theorem regRead_idle (r : Reg) (s : State) (h : s.pend = none) : regRead r s = (regValue r s, s) := by
  simp [regRead, State.busy, h]

/-- The four things a register write can do (R80). -/
theorem regWrite_cases (r : Reg) (v : Word) (s : State) :
    regWrite r v s = s ∨ (s.busy = true ∧ regWrite r v s = s.dropWrite) ∨
    (s.busy = false ∧ (regWrite r v s = { s with pend := some v } ∨
      regWrite r v s = { s with target := v.setWidth 24 } ∨ regWrite r v s = { s with data := v } ∨
      regWrite r v s = { s with outIndex := v.setWidth 24 })) := by
  cases hb : s.busy <;> cases r <;> simp [regWrite, hb]

@[simp] theorem andThen_next (t : State) (f : State → Host.Outcome State Fault Refusal) :
    andThen (.next t) f = f t := rfl

@[simp] theorem retired_next (t : State) : retired (.next t) = .next t.retire := rfl

end Sys2Proof.Machine
end

