-- ==== Sys2Proof/Laws/Decode.lean ====
section
/-! SUPPORT. The fields of an encoded command, and a word put together again from its fields (spec R100, R101, R106). -/

namespace Sys2Proof

open Sys2Proof.Machine

theorem opField_encode (i : Instr) : opField (encode i) = i.op := by
  apply BitVec.eq_of_getLsbD_eq
  intro k hk
  simp only [opField, encode, BitVec.getLsbD_extractLsb', BitVec.getLsbD_or, getLsbD_bitsAt]
  have h0 : i.operandByte.getLsbD (24 + k) = false := BitVec.getLsbD_of_ge _ _ (by omega)
  simp [hk, show 24 + k < 32 by omega, h0]

theorem imm8Field_encode (i : Instr) : imm8Field (encode i) = i.operandByte := by
  apply BitVec.eq_of_getLsbD_eq
  intro k hk
  simp only [imm8Field, encode, BitVec.getLsbD_extractLsb', BitVec.getLsbD_or, getLsbD_bitsAt]
  simp [hk, show k < 32 by omega, show ¬24 ≤ k by omega]

theorem operandHighField_encode (i : Instr) : operandHighField (encode i) = 0 := by
  apply BitVec.eq_of_getLsbD_eq
  intro k hk
  simp only [operandHighField, encode, BitVec.getLsbD_extractLsb', BitVec.getLsbD_or, getLsbD_bitsAt]
  simp [show ¬24 ≤ 8 + k by omega, BitVec.getLsbD_of_ge]

theorem operandField_encode (i : Instr) (h : i.operandByte = 0) : operandField (encode i) = 0 := by
  apply BitVec.eq_of_getLsbD_eq
  intro k hk
  simp only [operandField, encode, BitVec.getLsbD_extractLsb', BitVec.getLsbD_or, getLsbD_bitsAt, h]
  simp [show ¬24 ≤ k by omega]

/-- A word is its OP, OPERAND[23:8] and OPERAND[7:0]. -/
theorem word_eq_fields (w : Word) :
    w = bitsAt 24 (opField w) ||| bitsAt 8 (operandHighField w) ||| bitsAt 0 (imm8Field w) := by
  apply BitVec.eq_of_getLsbD_eq
  intro k hk
  simp only [opField, operandHighField, imm8Field, BitVec.getLsbD_extractLsb', BitVec.getLsbD_or, getLsbD_bitsAt]
  by_cases h24 : 24 ≤ k
  · simp [hk, h24, show 8 ≤ k by omega, show ¬k - 8 < 16 by omega, show ¬k < 8 by omega, show k - 24 < 8 by omega,
      show 24 + (k - 24) = k by omega]
  · by_cases h8 : 8 ≤ k
    · simp [hk, h24, h8, show k - 8 < 16 by omega, show ¬k < 8 by omega, show 8 + (k - 8) = k by omega]
    · simp [hk, h24, h8, show k < 8 by omega]

/-- A zero operand has a zero high part and a zero low byte. -/
theorem operandParts_of_zero {w : Word} (h : operandField w = 0) : operandHighField w = 0 ∧ imm8Field w = 0 := by
  have hb (k : Nat) (hk : k < 24) : w.getLsbD k = false := by
    have := congrArg (fun v => v.getLsbD k) h
    simpa [operandField, BitVec.getLsbD_extractLsb', hk] using this
  constructor <;> apply BitVec.eq_of_getLsbD_eq <;> intro k hk
  · simp [operandHighField, hk, hb (8 + k) (by omega)]
  · simp [imm8Field, hk, hb k (by omega)]

/-- OP as a number (R100). -/
theorem toNat_opField (w : Word) : (opField w).toNat = w.toNat / 2 ^ 24 := by
  have := w.isLt
  rw [opField, BitVec.extractLsb'_toNat, Nat.shiftRight_eq_div_pow]
  omega

/-- OPERAND as a number (R100). -/
theorem toNat_operandField (w : Word) : (operandField w).toNat = w.toNat % 2 ^ 24 := by
  rw [operandField, BitVec.extractLsb'_toNat, Nat.shiftRight_zero]

/-- OPERAND[23:8] as a number (R101). -/
theorem toNat_operandHighField (w : Word) : (operandHighField w).toNat = w.toNat % 2 ^ 24 / 2 ^ 8 := by
  rw [operandHighField, BitVec.extractLsb'_toNat, Nat.shiftRight_eq_div_pow]
  omega

/-- An encoded command as a number, (OP << 24) + imm8 (R106). -/
theorem toNat_encode (i : Instr) : (encode i).toNat = 2 ^ 24 * i.op.toNat + i.operandByte.toNat := by
  have h1 := i.op.isLt
  have h2 := i.operandByte.isLt
  rw [encode, BitVec.toNat_or]
  have e1 : (bitsAt 24 i.op).toNat = 2 ^ 24 * i.op.toNat := by
    rw [bitsAt, BitVec.toNat_shiftLeft, BitVec.toNat_setWidth, Nat.shiftLeft_eq]
    omega
  have e2 : (bitsAt 0 i.operandByte).toNat = i.operandByte.toNat := by
    rw [bitsAt, BitVec.toNat_shiftLeft, BitVec.toNat_setWidth, Nat.shiftLeft_zero]
    omega
  rw [e1, e2, ← Nat.two_pow_add_eq_or_of_lt (by omega)]

end Sys2Proof
end

