-- ==== Sys2Proof/Laws/Fold.lean ====
section
/-! SUPPORT. The shape of Compress's result: its length and its elements. -/

namespace Sys2Proof.Machine

/-- Exactly T checksum bytes (R160). -/
@[simp] theorem length_compress (rd : Nat → Byte) (n t : Nat) : (compress rd n t).length = t := by
  simp [compress]

/-- C[i] is the fold of segment i (R164). -/
theorem getElem_compress (rd : Nat → Byte) (n t i : Nat) (h : i < (compress rd n t).length) :
    (compress rd n t)[i] = segFold rd (segLo n t i) (segHi n t i) := by
  simp [compress]

/-- Compress reads IN only below the bounds of its segments. -/
theorem foldFrom_congr {rd rd' : Nat → Byte} (acc : Byte) (j len : Nat)
    (h : ∀ k, j ≤ k → k < j + len → rd k = rd' k) : foldFrom rd acc j len = foldFrom rd' acc j len := by
  induction len generalizing acc j with
  | zero => rfl
  | succ len ih =>
    rw [foldFrom, foldFrom, h j (le_refl j) (by omega)]
    exact ih _ _ fun k hk hk' => h k (by omega) (by omega)

end Sys2Proof.Machine
end

