-- ==== Sys2Proof/Laws/Exec.lean ====
section
/-! SUPPORT. Every command completes (spec R210: errors do not trap), and what a step is when only one agent can move. -/

namespace Sys2Proof.Machine

/-- The state a command leaves. -/
def execState (i : Instr) (s : State) : State :=
  match exec i s with
  | .next t => t
  | .fault _ => s
  | .refused _ => s

/-- Every command completes in every state (R210). -/
theorem exec_eq_next (i : Instr) (s : State) : exec i s = .next (execState i s) := by
  cases i <;> rfl

/-- A command leaves PEND to the engine step and the host's side to the host. -/
theorem exec_keeps_environment {i : Instr} {s t : State} (h : exec i s = .next t) :
    t.pend = s.pend ∧ t.program = s.program ∧ t.turns = s.turns ∧ t.waited = s.waited ∧
      t.engineTurns = s.engineTurns ∧ t.replies = s.replies ∧ t.draws = s.draws ∧ t.target = s.target ∧
      t.data = s.data ∧ t.outIndex = s.outIndex := by
  have ha (b : Byte) (u : State) : (u.append b).pend = u.pend ∧ (u.append b).program = u.program ∧
      (u.append b).turns = u.turns ∧ (u.append b).waited = u.waited ∧ (u.append b).engineTurns = u.engineTurns ∧
      (u.append b).replies = u.replies ∧ (u.append b).draws = u.draws ∧
      (u.append b).target = u.target ∧ (u.append b).data = u.data ∧ (u.append b).outIndex = u.outIndex := by
    obtain ⟨-, e⟩ | ⟨-, e⟩ := State.append_cases b u <;> rw [e] <;> simp
  cases i <;> simp only [exec] at h
  case pushb b =>
    obtain rfl := Host.Outcome.next.inj h
    split_ifs <;> first | exact ha b s | simp
  case pushhex b =>
    obtain rfl := Host.Outcome.next.inj h
    split_ifs
    · simp
    · simp
    · split
      · simp
      · next v _ =>
        obtain ⟨-, e⟩ | ⟨-, e⟩ := State.pushNibble_cases v s <;> rw [e]
        · exact ha _ { s with hexPend := false }
        · simp
  case compress => obtain rfl := Host.Outcome.next.inj h; split <;> simp
  case humanize => obtain rfl := Host.Outcome.next.inj h; split_ifs <;> first | (split <;> simp) | simp
  case lookup b => obtain rfl := Host.Outcome.next.inj h; split_ifs <;> simp
  case tblWrite =>
    obtain rfl := Host.Outcome.next.inj h
    split_ifs
    · obtain ⟨_, e⟩ | ⟨_, e⟩ := State.addEntry_cases s <;> simp [e]
    · simp
  case tblEnd => obtain rfl := Host.Outcome.next.inj h; split_ifs <;> simp
  all_goals obtain rfl := Host.Outcome.next.inj h; simp

/-- With no host statement left, a step is the engine's move (R82). -/
theorem step_engine {s : State} {w : Word} (hp : s.pend = some w) (hh : hostReady s = false) :
    step s = retired (perform w s) := by
  simp [step, systemMove, hh, State.busy, hp, engineMove]

/-- With nothing pending, a step is the host's move (R82). -/
theorem step_host {s : State} (hp : s.pend = none) (hh : hostReady s = true) : step s = hostMove s := by
  simp [step, systemMove, hh, State.busy, hp]

/-- With both agents able to move, the head of `turns` says which does (R82). -/
theorem step_turn {s : State} {w : Word} {a : Agent} {ts : List Agent} (hp : s.pend = some w)
    (hh : hostReady s = true) (ht : s.turns = a :: ts) : step s = turnMove (a, { s with turns := ts }) := by
  simp [step, systemMove, hh, State.busy, hp, nextTurn, ht]

/-- With both agents able to move and `turns` empty, the host moves while the engine's turn has not come (log entry 4). -/
theorem step_waiting {s : State} {w : Word} (hp : s.pend = some w) (hh : hostReady s = true) (ht : s.turns = [])
    (hw : s.waited < hostMovesBefore s.engineTurns) : step s = hostMove { s with waited := s.waited + 1 } := by
  simp [step, systemMove, hh, State.busy, hp, nextTurn, ht, hw, turnMove]

/-- With both agents able to move and `turns` empty, the engine moves once its turn has come (R250; log entry 4). -/
theorem step_engine_due {s : State} {w : Word} (hp : s.pend = some w) (hh : hostReady s = true) (ht : s.turns = [])
    (hw : hostMovesBefore s.engineTurns ≤ s.waited) :
    step s = engineMove { s with waited := 0, engineTurns := s.engineTurns + 1 } := by
  simp [step, systemMove, hh, State.busy, hp, nextTurn, ht, Nat.not_lt.2 hw, turnMove]

/-- Performing any word completes, with PEND and the host's side untouched. -/
theorem perform_eq_next (w : Word) (s : State) :
    ∃ t, perform w s = .next t ∧ t.pend = s.pend ∧ t.program = s.program ∧ t.turns = s.turns ∧
      t.waited = s.waited ∧ t.engineTurns = s.engineTurns ∧ t.replies = s.replies ∧ t.draws = s.draws ∧ t.target = s.target ∧ t.data = s.data ∧ t.outIndex = s.outIndex := by
  unfold perform
  split
  · next i _ => exact ⟨_, exec_eq_next i s, exec_keeps_environment (exec_eq_next i s)⟩
  · exact ⟨_, rfl, rfl, rfl, rfl, rfl, rfl, rfl, rfl, rfl, rfl, rfl⟩

end Sys2Proof.Machine
end

