-- ==== Sys2Proof/Laws/PerInstr.lean ====
section
/-! SUPPORT. The family EncodingRow: the encoding of an instruction selects that instruction's row of the opcode table
(spec R103). One lemma per instruction. -/

namespace Sys2Proof.Laws.EncodingRow

/-- The word of `i` selects, of all the rows of the opcode table, exactly the row with `i`'s mnemonic. -/
def Statement (i : Instr) : Prop :=
  ((opcodeRows.filter fun r => r.selects (encode i)).map OpcodeRow.mnemonic) = [i.mnemonic]

theorem nop : Statement .nop := by unfold Statement; decide
theorem clrin : Statement .clrin := by unfold Statement; decide
theorem compress : Statement .compress := by unfold Statement; decide
theorem humanize : Statement .humanize := by unfold Statement; decide
theorem tblBegin : Statement .tblBegin := by unfold Statement; decide
theorem tblWrite : Statement .tblWrite := by unfold Statement; decide
theorem tblEnd : Statement .tblEnd := by unfold Statement; decide
theorem tblDefault : Statement .tblDefault := by unfold Statement; decide
theorem clrerr : Statement .clrerr := by unfold Statement; decide

theorem pushb (b : Byte) : Statement (.pushb b) := by revert b; unfold Statement; decide
theorem pushhex (b : Byte) : Statement (.pushhex b) := by revert b; unfold Statement; decide
theorem lookup (b : Byte) : Statement (.lookup b) := by revert b; unfold Statement; decide

end Sys2Proof.Laws.EncodingRow
end

