-- ==== Sys2Proof/Tests/Slice0.lean ====
section
/-! SUPPORT. The model's own tests: decoding (words written out from spec R103), what the checks of WellFormed refuse, one
step of each command on small states (expected results from spec 95_test_vectors.md), and for each obligation with
hypotheses a witness that meets them. -/

namespace Sys2Proof.Tests

open Sys2Proof Sys2Proof.Machine

/-! ### Decoding, from the table of R103: OP in bits 31:24, OPERAND in 23:0 -/

theorem test_decode_nop : decode 0b00000000000000000000000000000000 = .ok .nop := by decide
theorem test_decode_clrin : decode 0b00000001000000000000000000000000 = .ok .clrin := by decide
theorem test_decode_pushb : decode 0b00000010000000000000000010100101 = .ok (.pushb 0xA5) := by decide
theorem test_decode_pushhex : decode 0b00000011000000000000000001100001 = .ok (.pushhex 0x61) := by decide
theorem test_decode_compress : decode 0b00000100000000000000000000000000 = .ok .compress := by decide
theorem test_decode_humanize : decode 0b00000101000000000000000000000000 = .ok .humanize := by decide
theorem test_decode_lookup : decode 0b00000110000000000000000001001101 = .ok (.lookup 0x4D) := by decide
theorem test_decode_tbl_begin : decode 0b00001000000000000000000000000000 = .ok .tblBegin := by decide
theorem test_decode_tbl_write : decode 0b00001001000000000000000000000000 = .ok .tblWrite := by decide
theorem test_decode_tbl_end : decode 0b00001010000000000000000000000000 = .ok .tblEnd := by decide
theorem test_decode_tbl_default : decode 0b00001011000000000000000000000000 = .ok .tblDefault := by decide
theorem test_decode_clrerr : decode 0b00001111000000000000000000000000 = .ok .clrerr := by decide

/-- The illegal words of vector D-X2, one of each case of R104. -/
theorem test_decode_illegal :
    decode 0x07000000 = .error (.unassignedOpcode 0x07) ∧ decode 0x04000001 = .error (.operandNotZero 0x04) ∧
    decode 0x02000100 = .error (.operandHighNotZero 0x02) ∧ decode 0xFF000000 = .error (.unassignedOpcode 0xFF) ∧
    decode 0x0C000000 = .error (.unassignedOpcode 0x0C) ∧ decode 0x10000000 = .error (.unassignedOpcode 0x10) := by
  decide

/-- R73: the lowest byte lane carries bits 7:0, so PUSHB 0x5A lies in memory order as 5A 00 00 02. -/
theorem test_decode_bytes : decodeBytes [0x5A, 0x00, 0x00, 0x02, 0x77] = .ok (.pushb 0x5A, [0x77]) := by decide
theorem test_decode_bytes_short : decodeBytes [0x00, 0x00, 0x00] = .error .tooShort := by decide
theorem test_decode_table_word :
    decodeTableWord 32 0x0600004D = some (.lookup 0x4D) ∧ decodeTableWord 32 0x0D000000 = none := by decide

/-! ### WellFormed and the assembler (R106, R108) -/

theorem test_pushb_256_refused : (AsmCommand.pushb 256).wellFormed = false ∧ assemble (.pushb 256) = none := by decide
theorem test_pushhex_code_256_refused :
    (AsmCommand.pushhexCode 256).wellFormed = false ∧ assemble (.pushhexCode 256) = none := by decide
theorem test_pushhex_char_refused :
    (AsmCommand.pushhexChar 'é').wellFormed = false ∧ assemble (.pushhexChar 'é') = none := by decide
theorem test_lookup_256_refused : (AsmCommand.lookup 256).wellFormed = false ∧ assemble (.lookup 256) = none := by decide
theorem test_hex_macro_refused : (HostMacro.hex ['1', 'é']).wellFormed = false := by decide
theorem test_bytes_macro_refused : (HostMacro.bytes [255, 256]).wellFormed = false := by decide
theorem test_sett_macro_refused : (HostMacro.sett (2 ^ 32)).wellFormed = false := by decide
theorem test_loadtbl_macro_refused : (HostMacro.loadtbl [1, 2]).wellFormed = false := by decide
theorem test_rdout_macro_refused : (HostMacro.rdout (2 ^ 32)).wellFormed = false := by decide
theorem test_expand_refused : expandMacro (.bytes [256]) = none ∧ expandMacro (.loadtbl []) = none := by decide

/-- Program P1: PUSHHEX '1' is 0x03000031; program P4: PUSHB 0x1A is 0x0200001A and LOOKUP 0x71 is 0x06000071. -/
theorem test_assemble_lines :
    assembleLine ["PUSHHEX", "'1'"] = some 0x03000031 ∧ assembleLine ["PUSHB", "0x1A"] = some 0x0200001A ∧
    assembleLine ["LOOKUP", "113"] = some 0x06000071 ∧ assembleLine ["TBL_END"] = some 0x0A000000 ∧
    assembleLine ["PUSHB", "256"] = none ∧ assembleLine ["LOOKUP"] = none := by decide

/-- For AssemblerEmitsOpcodeAndOperand: a character operand and two spellings of a number. -/
theorem witness_AssemblerEmitsOpcodeAndOperand : "'a'".toList = ['\'', 'a', '\''] ∧
    readNumber "0xFF".toList = some 255 ∧ readNumber "256".toList = some 256 := by decide

/-- R108: HEX "1a" and SETT 2. -/
theorem test_expand_hex_sett :
    expandAll [.hex ['1', 'a'], .sett 2] =
      some [.wr .cmd 0x03000031, .wait, .wr .cmd 0x03000061, .wait, .wr .target 2] := by decide

/-! ### Small states -/

/-- A valid table whose entries 0x31 and 0x71 are those of the spec's TEST table, and 0xFF is 5; the others are 0. -/
def smallTable : Vector Token 256 :=
  (((Vector.replicate 256 0).set 0x31 0xC0DE0031).set 0x71 0xC0DE0071).set 0xFF 5

/-- After reset, with that table. -/
def fresh : State := { State.reset with tbl := smallTable }

/-- IN = 1A 2B 3C 4D with target `t`. -/
def loaded (t : BitVec 24) : State :=
  { fresh with inBuf := [(0, 0x1A), (1, 0x2B), (2, 0x3C), (3, 0x4D)], inCount := 4, target := t }

/-- One input byte, T = 1 = N. -/
def single : State := { fresh with inBuf := [(0, 0x7E)], inCount := 1, target := 1 }

/-- An input buffer filled to MAX_N, whatever MAX_N is. -/
def full : State := { fresh with inCount := maxN }

/-- An open load with `n` entries written and DATA = 0xCAFE0000. -/
def loading (n : Nat) (x : Bool) : State :=
  { fresh with tblValid := false, tblLoading := true, count := n, excess := x, data := 0xCAFE0000 }

/-- `w` pending, and the host about to perform `p` when its turn in `ts` comes. -/
def pending (w : Word) (p : List HostStmt) (ts : List Agent) : State :=
  { fresh with pend := some w, program := p, turns := ts }

/-! ### One command each -/

/-- D-X1. -/
theorem test_nop : (execState .nop { fresh with errcode := .insufficientInput, overrun := true }).errcode = .success ∧
    (execState .nop { fresh with errcode := .insufficientInput, overrun := true }).overrun = true := by decide
/-- D-X3. -/
theorem test_clrerr : (execState .clrerr { fresh with errcode := .tableState, overrun := true }).overrun = false ∧
    (execState .clrerr { fresh with errcode := .tableState, overrun := true }).errcode = .success := by decide
/-- D-I10. -/
theorem test_clrin :
    (execState .clrin { fresh with hexPend := true, inFault := .badDigest, inCount := 3 }).inFault = .none ∧
    (execState .clrin { fresh with hexPend := true, inFault := .badDigest, inCount := 3 }).inCount = 0 := by decide
theorem test_pushb_first : (execState (.pushb 0x1A) fresh).inBuf = [(0, 0x1A)] ∧
    (execState (.pushb 0x1A) fresh).inCount = 1 := by decide
/-- D-I6: a raw byte inside a hex pair. -/
theorem test_pushb_half_pair : (execState (.pushb 0) { fresh with hexPend := true, nib := 15 }).inFault = .badDigest ∧
    (execState (.pushb 0) { fresh with hexPend := true, nib := 15 }).errcode = .invalidDigest := by decide
/-- D-I1: 1 then a give 0x1A, not 0xA1. -/
theorem test_pushhex_pair : (execState (.pushhex 0x61) (execState (.pushhex 0x31) fresh)).inBuf = [(0, 0x1A)] := by decide
/-- D-I7. -/
theorem test_pushhex_dash : (execState (.pushhex 0x2D) fresh).inFault = .badDigest ∧
    (execState (.pushhex 0x2D) fresh).errcode = .invalidDigest := by decide
/-- D-C3. -/
theorem test_compress_remainder : (execState .compress (loaded 3)).ck = [(0, 0x1A), (1, 0x2B), (2, 0x71)] := by decide
/-- D-C5 and D-C6. -/
theorem test_compress_errors : (execState .compress (loaded 5)).errcode = .insufficientInput ∧
    (execState .compress (loaded 0)).errcode = .invalidTarget := by decide
/-- D-C21. -/
theorem test_compress_three_segments :
    compress (Cells.get [(0, 0xDE), (1, 0xAD), (2, 0xBE), (3, 0xEF), (4, 0x01), (5, 0x23), (6, 0x45)]) 7 3 =
      [0x73, 0x51, 0x67] := by decide
/-- D-H2. -/
theorem test_humanize_ck : (execState .humanize (loaded 2)).ck = [(0, 0x31), (1, 0x71)] ∧
    (execState .humanize (loaded 2)).outKind = .words := by decide
theorem test_humanize_wd : (execState .humanize (loaded 2)).wd = [(0, 0xC0DE0031), (1, 0xC0DE0071)] := by decide
/-- D-H4: the table check comes first. -/
theorem test_humanize_priority :
    (execState .humanize { loading 0 false with inFault := .badDigest, target := 0 }).errcode = .notConfigured := by
  decide
theorem test_lookup : (execState (.lookup 0xFF) fresh).lkResult = 5 := by decide
/-- D-H10. -/
theorem test_lookup_no_table : (execState (.lookup 0x31) (loading 0 false)).errcode = .notConfigured ∧
    (execState (.lookup 0x31) (loading 0 false)).lkResult = 0 := by decide
/-- D-T10. -/
theorem test_tbl_begin : statusWord (execState .tblBegin fresh) = 0x00000200 := by decide
/-- The example of R122. -/
theorem test_tbl_write : (execState .tblWrite (loading 0 false)).tbl[0] = 0xCAFE0000 ∧
    tblCountWord (execState .tblWrite (loading 0 false)) = 1 := by decide
/-- D-T3: the 257th entry. -/
theorem test_tbl_write_excess : tblCountWord (execState .tblWrite (loading 256 false)) = 0x00000300 := by decide
/-- D-T2 and D-T4. -/
theorem test_tbl_end_wrong_count : statusWord (execState .tblEnd (loading 255 false)) = 0x00000012 ∧
    statusWord (execState .tblEnd (loading 256 true)) = 0x00000012 := by decide
/-- R123: the failed TBL_END has closed the load, so a second one finds none open (log entry 9). -/
theorem test_tbl_end_repeated :
    statusWord (execState .tblEnd (execState .tblEnd (loading 255 false))) = 0x00000072 := by decide
theorem test_tbl_end_right_count : statusWord (execState .tblEnd (loading 256 false)) = 0x00000100 := by decide
/-- D-T9. -/
theorem test_tbl_default : statusWord (execState .tblDefault (loading 255 false)) = 0x00000100 ∧
    tblCountWord (execState .tblDefault (loading 255 false)) = 0x00000100 := by decide
/-- D-X8. -/
theorem test_status_after_failed_compress :
    statusWord { fresh with errcode := .insufficientInput, outKind := .checksums } = 0x00010122 := by decide

/-! ### The window and the step -/

/-- D-X4, but for CAP, whose MAX_N is open. -/
theorem test_reset_reads :
    [Reg.cmd, .status, .inCount, .target, .tblCount, .data, .outCount, .outIndex, .outCk, .outWord, .lkResult,
      .reserved 0, .reserved 3].map (fun r => (regRead r State.reset).1) =
      [0, 0x100, 0, 4, 0x100, 0, 0, 0, 0, 0, 0, 0, 0] := by decide
/-- D-X5 and D-X6. -/
theorem test_write_masks : (regRead .target (regWrite .target 0xFF000005 State.reset)).1 = 5 ∧
    regWrite .status 0xFFFFFFFF State.reset = State.reset := ⟨by decide, rfl⟩
/-- D-X7. -/
theorem test_dropped_command : (regWrite .cmd 0 (pending 0x04000000 [] [])).pend = some 0x04000000 ∧
    (regWrite .cmd 0 (pending 0x04000000 [] [])).overrun = true := by decide
/-- D-H6 and D-H8: OUT_WORD after a COMPRESS, and the outputs at index OUT_COUNT, read 0. -/
theorem test_output_views :
    (regRead .outCk { fresh with outKind := .checksums, outCount := 2, ck := [(0, 0x31)], wd := [(0, 7)] }).1 = 0x31 ∧
    (regRead .outWord { fresh with outKind := .checksums, outCount := 2, ck := [(0, 0x31)], wd := [(0, 7)] }).1 = 0 ∧
    (regRead .outWord { fresh with outKind := .words, outCount := 1, outIndex := 1, wd := [(1, 7)] }).1 = 0 := by decide
/-- Each row of the opcode table runs as the first command after reset; LOOKUP 0 reads DEFAULT_WORDLIST[0]. -/
theorem test_first_commands_run :
    ([0x00000000, 0x01000000, 0x02000000, 0x03000031, 0x04000000, 0x05000000, 0x06000000, 0x08000000, 0x09000000,
      0x0A000000, 0x0B000000, 0x0F000000].map fun w =>
        match step (State.reset.withFetchWord 32 w) with
        | .next t => some (t.errcode, t.pend)
        | .fault _ => none
        | .refused _ => none) =
      [some (.success, none), some (.success, none), some (.success, none), some (.success, none),
       some (.insufficientInput, none), some (.insufficientInput, none), some (.success, none), some (.success, none),
       some (.tableState, none), some (.tableState, none), some (.success, none), some (.success, none)] := by decide
theorem test_first_lookup : (execState (.lookup 0) State.reset).lkResult = defaultWordlist[0] := rfl
/-- R250: a pending command whose turn has come is performed, though the host polls. -/
theorem test_engine_due :
    step { pending 0x0F000000 [.wait] [] with waited := hostMovesBefore 0 } =
      .next { pending 0x0F000000 [.wait] [] with pend := none, engineTurns := 1 } :=
  (step_engine_due rfl rfl rfl (le_refl _)).trans rfl
/-- U7: a byte access leaves the host stuck; with nothing pending the model stops by name. -/
theorem test_byte_access_stops :
    step { fresh with program := [.bus ⟨.w8, 0, .read⟩] } = .fault .accessNotAdmitted := rfl

/-! ### Witnesses: for each obligation with hypotheses, states and operands that meet them all, clause by clause -/

theorem room : 0 < maxN := maxN_pos

theorem witness_IllegalWordsRaiseIllegalCommandOnly :
    0x0C ≤ (0xFF000000#32).toNat / 2 ^ 24 ∧ (0x04000001#32).toNat % 2 ^ 24 ≠ 0 ∧
    (0x02000100#32).toNat % 2 ^ 24 / 2 ^ 8 ≠ 0 ∧ (pending 0xFF000000 [] []).pend = some 0xFF000000 ∧
    hostReady (pending 0xFF000000 [] []) = false := by decide

theorem witness_StepPerformsThePendingCommand :
    decode 0 = .ok .nop ∧ (pending 0 [] []).pend = some 0 ∧ hostReady (pending 0 [] []) = false ∧
    (∃ t, exec .nop (pending 0 [] []) = .next t) ∧
    hostReady (pending 0 [.rd .status] [.engine]) = true ∧ (pending 0 [.rd .status] [.engine]).turns = .engine :: [] ∧
    (∃ t, exec .nop { pending 0 [.rd .status] [.engine] with turns := [] } = .next t) ∧
    hostReady { pending 0 [.rd .status] [] with waited := hostMovesBefore 0 } = true ∧
    hostMovesBefore (pending 0 [.rd .status] []).engineTurns ≤
      ({ pending 0 [.rd .status] [] with waited := hostMovesBefore 0 } : State).waited :=
  ⟨by decide, rfl, rfl, ⟨_, rfl⟩, rfl, rfl, ⟨_, rfl⟩, rfl, le_refl _⟩

theorem witness_FetchedWordIsPerformedNext :
    ∃ t, exec (.pushb 7) { fresh with pend := some (encode (.pushb 7)) } = .next t := ⟨_, rfl⟩

theorem witness_StepIsOneMoveOfHostOrEngine :
    (fresh.pend = none ∧ hostReady { fresh with program := [.wait] } = true) ∧
    ((pending 0 [] []).pend = some 0 ∧ hostReady (pending 0 [] []) = false) ∧
    (hostReady (pending 0 [.wait] [.engine]) = true ∧ hostReady (pending 0 [.wait] [.host]) = true) ∧
    (hostReady (pending 0 [.wait] []) = true ∧ (pending 0 [.wait] []).turns = []) ∧
    RunOver fresh := ⟨by decide, by decide, by decide, by decide, rfl, rfl⟩

theorem witness_TargetWriteRacesThePendingCommand :
    (pending 0x04000000 [.wr .target 2] [.host]).program = .wr .target 2 :: [] ∧
    (pending 0x04000000 [.wr .target 2] [.host]).turns = .host :: [] ∧
    (pending 0x04000000 [.wr .target 2] [.engine]).turns = .engine :: [] := ⟨rfl, rfl, rfl⟩

theorem witness_ResetDiscardsThePendingCommand :
    (pending 0x05000000 [.reset] [.host]).program = .reset :: [] ∧
    (pending 0x05000000 [.reset] [.host]).pend = some 0x05000000 ∧
    (pending 0x05000000 [.reset] [.host]).turns = .host :: [] ∧ (pending 0x05000000 [.reset] []).turns = [] ∧
    ({ fresh with program := [.reset] } : State).pend = none := ⟨rfl, rfl, rfl, rfl, rfl⟩

/-- A state of the invariant that is not the reset state: one input byte, and a statement for the host. -/
theorem single_inv (p : List HostStmt) : BlockInv { single with program := p } := by
  constructor <;> simp [single, fresh, State.reset, Cells.wf, Cells.wfFrom, Cells.within, unlisted, room]
  exact maxN_pos

theorem witness_StepKeepsTheInvariant :
    BlockInv { single with program := [.wr .cmd 0] } ∧
    step { single with program := [.wr .cmd 0] } = .next { single with pend := some 0 } := ⟨single_inv _, rfl⟩

theorem witness_NopAndClrerrClearTheErrorStatus :
    fresh.busy = false ∧ (pending 0 [] []).busy = true := by decide

theorem witness_ClrinStartsANewInput :
    (∃ t, exec .clrin { fresh with inFault := .overflow } = .next t ∧ t.inFault = .none) ∧
    ({ fresh with inFault := .overflow } : State).inFault ≠ .none := ⟨⟨_, rfl, rfl⟩, by decide⟩

theorem witness_PushbAppendsOneByteOrReportsItsFault :
    ({ fresh with inFault := .badDigest } : State).inFault = .badDigest ∧
    ({ fresh with inFault := .overflow } : State).inFault = .overflow ∧
    (({ fresh with hexPend := true } : State).inFault = .none ∧ ({ fresh with hexPend := true } : State).hexPend = true) ∧
    (full.inFault = .none ∧ full.hexPend = false ∧ maxN ≤ full.inCount) ∧
    (fresh.inFault = .none ∧ fresh.hexPend = false ∧ fresh.inCount < maxN ∧ Cells.wf fresh.inBuf = true) :=
  ⟨rfl, rfl, ⟨rfl, rfl⟩, ⟨rfl, rfl, le_refl _⟩, rfl, rfl, room, rfl⟩

theorem witness_PushhexTakesOneDigitOrReportsItsFault :
    (hexval 0x2D = none ∧ hexval 0x2F = none ∧ hexval 0x3A = none ∧ hexval 0x47 = none ∧ hexval 0x67 = none) ∧
    (hexval 0x39 = some 9 ∧ hexval 0x41 = some 10 ∧ hexval 0x66 = some 15) ∧
    (fresh.inFault = .none ∧ fresh.hexPend = false) ∧
    (({ full with hexPend := true } : State).inFault = .none ∧ maxN ≤ ({ full with hexPend := true } : State).inCount) ∧
    (({ fresh with hexPend := true } : State).inFault = .none ∧
      ({ fresh with hexPend := true } : State).inCount < maxN) :=
  ⟨by decide, by decide, ⟨rfl, rfl⟩, ⟨rfl, le_refl _⟩, rfl, room⟩

theorem witness_HexDigestLoadsItsBytes :
    ([0x31, 0x41] : List Byte).length = 2 * 1 ∧ 1 ≤ maxN ∧ (∀ c ∈ ([0x31, 0x41] : List Byte), hexval c ≠ none) ∧
    Cells.wf fresh.inBuf = true := ⟨rfl, maxN_pos, by decide, rfl⟩

theorem witness_MalformedDigestNeverYieldsChecksums :
    (([0x31] : List Byte).length % 2 = 1 ∧ ∃ t, loadDigest [0x31] fresh = .next t) ∧
    (∃ c ∈ ([0x31, 0x2D] : List Byte), hexval c = none) ∧ ∃ t, loadDigest [0x31, 0x2D] fresh = .next t :=
  ⟨⟨rfl, _, rfl⟩, by decide, _, rfl⟩

/-- For SegmentsAreNonEmptyAndLastTakesRemainder, SegmentsPartitionTheInput, CompressIdentityAndSingleOutput and
ChecksumsKeepTheParityOfTheInput: the spec's example N = 10, T = 3, its first and last segments, and T = N. -/
theorem witness_segments : (1 ≤ 3 ∧ 3 ≤ 10 ∧ 0 < 3 ∧ 2 < 3 ∧ 10 % 3 = 1) ∧ (1 ≤ 4 ∧ 4 ≤ 4 ∧ 4 % 4 = 0) := by decide

theorem witness_FoldIsTheXorInAnyOrder :
    2 < 4 ∧ ([0x4D, 0x3C] : List Byte).Perm ((List.range' 2 (4 - 2)).map (Cells.get (loaded 1).inBuf)) := by decide

theorem witness_CompressReducesTheInputToItsChecksums :
    ({ single with inFault := .badDigest } : State).inFault = .badDigest ∧
    ({ single with hexPend := true } : State).hexPend = true ∧
    (({ single with inFault := .overflow } : State).inFault = .overflow ∧
      ({ single with inFault := .overflow } : State).hexPend = false) ∧
    ((loaded 0).inFault = .none ∧ (loaded 0).hexPend = false ∧ (loaded 0).target = 0) ∧
    ((loaded 5).target ≠ 0 ∧ (loaded 5).inCount < (loaded 5).target.toNat) ∧
    ((loaded 4).target ≠ 0 ∧ (loaded 4).target.toNat ≤ (loaded 4).inCount ∧ Cells.wf (loaded 4).ck = true) := by decide

theorem witness_InputIsKeptAndOutputsAreRepeatable :
    Cells.wf (loaded 3).ck = true ∧ Cells.wf (loaded 3).wd = true ∧
    (execState .compress (loaded 3)).errcode = .success ∧ (execState .humanize (loaded 3)).errcode = .success ∧
    exec .compress (loaded 3) = .next (execState .compress (loaded 3)) :=
  ⟨by decide, by decide, by decide, by decide, exec_eq_next _ _⟩

/-- For LookupReturnsTheIndexedToken, HumanizeMapsTheChecksumsToTheirTokens and TblDefaultLoadsTheDefaultWordlist. -/
theorem witness_tables : (loading 0 false).tblValid = false ∧ fresh.tblValid = true := by decide

theorem witness_HumanizeMapsTheChecksumsToTheirTokens :
    (fresh.tblValid = true ∧ ({ fresh with inFault := .badDigest } : State).inFault = .badDigest) ∧
    (({ fresh with inFault := .overflow } : State).tblValid = true ∧
      ({ fresh with inFault := .overflow } : State).hexPend = false) ∧
    ((loaded 0).tblValid = true ∧ (loaded 0).target = 0) ∧
    ((loaded 5).tblValid = true ∧ (loaded 5).inCount < (loaded 5).target.toNat) ∧
    ((loaded 4).tblValid = true ∧ (loaded 4).inFault = .none ∧ (loaded 4).hexPend = false ∧ (loaded 4).target ≠ 0 ∧
      (loaded 4).target.toNat ≤ (loaded 4).inCount ∧ Cells.wf (loaded 4).ck = true ∧ Cells.wf (loaded 4).wd = true) := by
  decide

theorem witness_HumanizeGivesExactlyTargetWords :
    Cells.wf (loaded 2).ck = true ∧ Cells.wf (loaded 2).wd = true ∧
    exec .humanize (loaded 2) = .next (execState .humanize (loaded 2)) ∧
    (execState .humanize (loaded 2)).errcode = .success := ⟨by decide, by decide, exec_eq_next _ _, by decide⟩

theorem witness_SourceDigestSelectsItsFourTokens :
    State.reset.tblValid = true ∧ State.reset.target = 4 ∧ Cells.wf State.reset.inBuf = true ∧
    Cells.wf State.reset.ck = true ∧ Cells.wf State.reset.wd = true := by decide

/-- A table whose entries are pairwise distinct: entry k is k. -/
def countingTable : Vector Token 256 := Vector.ofFn fun k => BitVec.ofNat 32 k.val

theorem countingTable_distinct (a b : Byte)
    (h : countingTable[a.toNat]'a.isLt = countingTable[b.toNat]'b.isLt) : a = b := by
  have ha := a.isLt
  have hb := b.isLt
  simp only [countingTable, Vector.getElem_ofFn] at h
  have := congrArg BitVec.toNat h
  rw [BitVec.toNat_ofNat, BitVec.toNat_ofNat, Nat.mod_eq_of_lt (by omega), Nat.mod_eq_of_lt (by omega)] at this
  exact BitVec.eq_of_toNat_eq this

theorem witness_DistinctTableMakesHumanizeInjective :
    (∀ a b : Byte, ({ single with tbl := countingTable } : State).tbl[a.toNat]'a.isLt =
      ({ single with tbl := countingTable } : State).tbl[b.toNat]'b.isLt → a = b) ∧
    Cells.wf single.ck = true ∧ Cells.wf single.wd = true ∧
    (execState .humanize { single with tbl := countingTable }).errcode = .success ∧
    (execState .humanize { single with tbl := countingTable, inBuf := [(0, 0x11)] }).errcode = .success :=
  ⟨countingTable_distinct, rfl, rfl, rfl, rfl⟩

theorem witness_TblBeginOpensALoad :
    (loading 256 false).tblValid = false ∧ (execState .tblEnd (loading 256 false)).tblValid = true ∧
    (execState .tblDefault (loading 255 false)).tblValid = true := by decide

/-- COUNT at 255, the last entry that is stored, and at 256. -/
theorem witness_TblWriteAppendsOneEntry :
    fresh.tblLoading = false ∧ ((loading 255 false).tblLoading = true ∧ (loading 255 false).count < 256) ∧
    ((loading 256 false).tblLoading = true ∧ 256 ≤ (loading 256 false).count) := by decide

theorem witness_TblEndChecksTheCount :
    fresh.tblLoading = false ∧ ((loading 256 false).count = 256 ∧ (loading 256 false).excess = false) ∧
    (loading 255 false).count ≠ 256 ∧ (loading 256 true).excess = true ∧ (loading 256 true).tblLoading = true := by
  decide

theorem entriesOf_copies (n : Nat) : (entriesOf (.inr .nop :: List.replicate n (.inl 5))).length = n := by
  show (List.filterMap Sum.getLeft? (List.replicate n (Sum.inl 5#32 : Token ⊕ Instr))).length = n
  induction n with
  | zero => rfl
  | succ n ih => rw [List.replicate_succ, List.filterMap_cons]; simpa using ih

/-- 256 copies of one token with a NOP among them (D-T5). -/
theorem witness_TableLoadSucceedsExactlyWith256Entries :
    fresh.pend = none ∧ isTableCommand .nop = false ∧
    (entriesOf (.inr .nop :: List.replicate 256 (.inl 5))).length = 256 ∧
    (entriesOf (.inr .nop :: List.replicate 255 (.inl 5))).length = 255 := ⟨rfl, rfl, entriesOf_copies 256, entriesOf_copies 255⟩

theorem witness_SomeCommandsNeverFail : (execState .tblBegin (loading 3 false)).errcode = .success ∧
    (execState .clrin fresh).errcode = .success := by decide

/-- States in which several checks of each command apply at once (R213). -/
theorem witness_FirstApplicableErrorIsReported :
    exec .humanize { loading 0 false with hexPend := true, target := 0 } =
      .next (execState .humanize { loading 0 false with hexPend := true, target := 0 }) ∧
    exec (.pushb 1) { full with hexPend := true } = .next (execState (.pushb 1) { full with hexPend := true }) ∧
    exec (.pushhex 0x2D) full = .next (execState (.pushhex 0x2D) full) ∧
    exec .tblWrite fresh = .next (execState .tblWrite fresh) ∧
    exec .tblEnd (loading 256 true) = .next (execState .tblEnd (loading 256 true)) ∧
    decode 0x07000000 = .error (.unassignedOpcode 0x07) ∧
    perform 0x07000000 fresh = .next { fresh with errcode := .illegalCommand } :=
  ⟨exec_eq_next _ _, exec_eq_next _ _, exec_eq_next _ _, exec_eq_next _ _, exec_eq_next _ _, by decide, rfl⟩

/-- For FailingCommandsChangeOnlyTheirFaultMarks and RepeatingAFailedCommandFailsAlike: failing commands, the PUSHHEX that
overflows on the second character among them. -/
theorem witness_failing_commands :
    (execState (.pushb 1) full).errcode = .inputOverflow ∧
    (execState (.pushhex 0x31) { full with hexPend := true }).errcode = .inputOverflow ∧
    (execState .tblEnd fresh).errcode = .tableState ∧
    (execState .tblEnd (loading 255 false)).errcode = .invalidConfiguration ∧
    (execState .compress fresh).errcode = .insufficientInput ∧
    (execState (.pushb 1) { fresh with inFault := .overflow }).errcode = .inputOverflow ∧
    (execState (.pushhex 0x31) { fresh with inFault := .badDigest }).errcode = .invalidDigest ∧
    decode 0x07000000 = .error (.unassignedOpcode 0x07) := by
  refine ⟨?_, ?_, by decide, by decide, by decide, by decide, by decide, by decide⟩
  · simp [execState, exec, execPushb, full, fresh, State.reset, State.append]
  · simp [execState, exec, execPushhex, hexval, full, fresh, State.reset, State.pushNibble, State.append]

theorem witness_CommandsWriteOnlyTheirOwnRegisters :
    fresh.tblLoading = false ∧ exec .compress (loaded 2) = .next (execState .compress (loaded 2)) :=
  ⟨rfl, exec_eq_next _ _⟩

theorem witness_NoCommandReadsErrorStatus : exec .clrerr fresh = .next (execState .clrerr fresh) := exec_eq_next _ _

/-- Two states of the invariant that differ in NIB, IN beyond N, CK and WD. -/
theorem witness_UnspecifiedContentsAreUnobservable :
    BlockInv { single with program := [.rd .outCk] } ∧
    BlockInv { single with program := [.rd .outCk], nib := 9, ck := [(0, 3)], wd := [(0, 8)] } ∧
    Indistinguishable { single with program := [.rd .outCk] }
      { single with program := [.rd .outCk], nib := 9, ck := [(0, 3)], wd := [(0, 8)] } := by
  obtain ⟨a, b, c, d, e, f, g, h, i, -, -, j, -, -⟩ := single_inv [.rd .outCk]
  refine ⟨single_inv _, ⟨a, b, c, d, e, f, g, h, i, by decide, by decide, j, ?_, ?_⟩, ?_⟩
  · simp [Cells.within, room]
  · simp [Cells.within, room]
  · constructor <;> simp [single, fresh, State.reset]

theorem witness_TableStateDoesNotAffectLoadingOrCompress :
    exec .compress (loaded 2) = .next (execState .compress (loaded 2)) ∧ (Instr.compress = .compress) :=
  ⟨exec_eq_next _ _, rfl⟩

/-- The window's first and last register are admitted; one past it, an odd offset and a half-word are not. -/
theorem witness_OnlyAlignedWordAccessesAreAdmitted :
    (base ≤ base + 0 ∧ base + 0 < base + 64 ∧ (base + 0) % 4 = 0 ∧ regOffset .cap = 0) ∧
    (base + 60 < base + 64 ∧ (base + 60) % 4 = 0 ∧ regOffset (.reserved 3) = 60) ∧
    ¬(base + 64 < base + 64) ∧ ¬((base + 2) % 4 = 0) ∧ BusWidth.w16 ≠ .w32 ∧
    ((pending 0 [.bus ⟨.w16, 0, .read⟩] []).program = .bus ⟨.w16, 0, .read⟩ :: [] ∧
      (pending 0 [.bus ⟨.w16, 0, .read⟩] []).pend = some 0) := by
  have := base_mod
  refine ⟨⟨by omega, by omega, by omega, rfl⟩, ⟨by omega, by omega, rfl⟩, by omega, by omega, by decide, rfl, rfl⟩

theorem witness_PackedRegistersHoldTheirFields : fresh.count ≤ 256 ∧ (loading 256 true).count ≤ 256 := by decide

theorem witness_IdleReadsReturnTheRegisters : fresh.pend = none ∧ full.pend = none ∧ full.inCount ≤ maxN :=
  ⟨rfl, rfl, le_refl _⟩

/-- For BusyReadsAreExactOrDrawn, CmdWriteIsAcceptedOrDropped, OperandRegistersStoreOnlyWhileIdle: a pending command, and
none. -/
theorem witness_pending : (pending 0x04000000 [] []).pend = some 0x04000000 ∧ fresh.pend = none := ⟨rfl, rfl⟩

/-- A read-only register, and a reserved offset. -/
theorem witness_ReadOnlyAndReservedWritesAreIgnored : Reg.lkResult = .lkResult ∧ ∃ k, Reg.reserved 3 = .reserved k :=
  ⟨rfl, 3, rfl⟩

/-- A dropped write, a reset and a CLRERR at OVERRUN = 1. -/
theorem witness_OverrunMarksDroppedWritesUntilCleared :
    BreaksWriteHazard (pending 0 [.wr .data 1] []) ∧
    (∃ t, hostMove (pending 0 [.wr .data 1] []) = .next t ∧ t.overrun = true) ∧
    (∃ t, hostMove { fresh with overrun := true, program := [.reset] } = .next t ∧ t.overrun = false) ∧
    ∃ t, engineMove { fresh with overrun := true, pend := some 0x0F000000 } = .next t ∧ t.overrun = false :=
  ⟨⟨rfl, _, _, _, _, rfl, rfl, rfl⟩, ⟨_, rfl, rfl⟩, ⟨_, rfl, rfl⟩, ⟨_, rfl, rfl⟩⟩

theorem witness_HostReadChangesNothingOfTheBlock :
    ({ fresh with program := [.rd .data] } : State).program = .rd .data :: [] ∧
    (pending 0 [.rd .data] [.host]).turns = .host :: [] := ⟨rfl, rfl⟩

theorem witness_WaitGoesOnExactlyWhenNothingIsPending :
    ({ fresh with program := [.wait] } : State).program = .wait :: [] ∧ (pending 0 [.wait] []).program = .wait :: [] :=
  ⟨rfl, rfl⟩

theorem witness_EngineTurnCompletesAWaitedCommand :
    (pending 0x05000000 [.wait] [.engine]).pend = some 0x05000000 ∧
    (pending 0x05000000 [.wait] [.engine]).program = .wait :: [] ∧
    (pending 0x05000000 [.wait] [.engine]).turns = .engine :: [] ∧
    (pending 0x05000000 [.wait] []).pend = some 0x05000000 := ⟨rfl, rfl, rfl, rfl⟩

theorem witness_RegisterWritesTakeEffectAtOnce :
    (loading 255 false).pend = none ∧ (loading 255 false).count < 256 ∧ (loading 255 false).tblLoading = true ∧
    (∃ t, exec .tblWrite (regWrite .data 7 (loading 255 false)) = .next t) ∧
    (1 : Word).toNat < ({ fresh with outCount := 2, outKind := .words } : State).outCount.toNat ∧
    ({ fresh with outCount := 2, outKind := .words } : State).outKind ≠ .nothing :=
  ⟨rfl, by decide, rfl, ⟨_, exec_eq_next _ _⟩, by decide, by decide⟩

/-- 256 tokens expand; 2 do not (test_loadtbl_macro_refused). -/
theorem witness_LoadtblExpandsToItsLoad : (List.replicate 256 (5 : Token)).length = 256 := List.length_replicate

end Sys2Proof.Tests
end

/-! PROOFS. The statements of the family 10_state.md. Before them, each said once: what a register read and write can do,
STATUS while BUSY = 1 bit by bit, the decoder as the encoder's inverse, what commands make of ERRCODE and OVERRUN, and what
a move of the host or of the engine can be. -/

namespace Sys2Proof.Machine

/-! ### Reads and writes of a register -/

theorem State.busy_of_pend {s : State} {w : Word} (h : s.pend = some w) : s.busy = true := by
  rw [State.busy, h]; rfl

theorem State.not_busy_of_pend {s : State} (h : s.pend = none) : s.busy = false := by
  rw [State.busy, h]; rfl

/-- A read of a register that stays exact while BUSY = 1 gives its value in every state (R49, R79). -/
theorem regRead_exact {r : Reg} (s : State) (h : openWhileBusy r = false) : regRead r s = (regValue r s, s) := by
  simp [regRead, h]

/-- A read that R49 leaves open gives the free value drawn for it. -/
theorem regRead_open {r : Reg} {s : State} (hb : s.busy = true) (h : openWhileBusy r = true) :
    regRead r s = (openValue r (busyDraw s.draws) s, { s with draws := s.draws + 1 }) := by
  simp [regRead, hb, h]

/-- While BUSY = 1 a write to CMD, TARGET, DATA or OUT_INDEX is dropped (R25, R48). -/
theorem regWrite_busy {r : Reg} (v : Word) {s : State} (hb : s.busy = true) (hr : droppedWhileBusy r = true) :
    regWrite r v s = s.dropWrite := by
  cases r <;> simp_all [regWrite, droppedWhileBusy]

/-- A write to a register other than CMD, TARGET, DATA and OUT_INDEX is ignored (R46, R47). -/
theorem regWrite_ignored {r : Reg} (v : Word) (s : State) (hr : droppedWhileBusy r = false) :
    regWrite r v s = s := by
  cases r <;> simp_all [regWrite, droppedWhileBusy]

/-- A write sets OVERRUN exactly when it is dropped, and never clears it (R34). -/
theorem regWrite_overrun (r : Reg) (v : Word) (s : State) :
    (regWrite r v s).overrun = (s.overrun || (s.busy && droppedWhileBusy r)) := by
  cases hr : droppedWhileBusy r with
  | false => simp [regWrite_ignored v s hr]
  | true =>
    cases hb : s.busy with
    | true => simp [regWrite_busy v hb hr]
    | false => cases r <;> simp_all [regWrite, droppedWhileBusy]

@[simp] theorem hostRead_overrun (r : Reg) (s : State) : (hostRead r s).overrun = s.overrun := by
  obtain h | h := regRead_state r s <;> simp [hostRead, h]

/-! ### STATUS while BUSY = 1 -/

/-- The open bits of STATUS are ERR, ERRCODE, TBL_VALID, TBL_LOADING, HEX_PEND, IN_FAULT and OUT_KIND (R26, R49). -/
theorem statusOpenMask_getLsbD (k : Nat) :
    statusOpenMask.getLsbD k = decide (k = 1 ∨ (4 ≤ k ∧ k ≤ 10) ∨ k = 12 ∨ k = 13 ∨ k = 16 ∨ k = 17) := by
  by_cases hk : k < 32
  · have h : ∀ j : Fin 32, statusOpenMask.getLsbD j =
        decide (j.val = 1 ∨ (4 ≤ j.val ∧ j.val ≤ 10) ∨ j.val = 12 ∨ j.val = 13 ∨ j.val = 16 ∨ j.val = 17) := by
      decide
    exact h ⟨k, hk⟩
  · rw [BitVec.getLsbD_of_ge _ _ (by omega)]
    simp; omega

/-- A one-bit field of a word, bit by bit. -/
theorem getLsbD_bitsAt_ofBool {lo : Nat} (hlo : lo < 32) (b : Bool) (k : Nat) :
    (bitsAt lo (BitVec.ofBool b)).getLsbD k = (decide (k = lo) && b) := by
  rw [getLsbD_bitsAt, BitVec.getLsbD_ofBool]
  by_cases h : k = lo
  · simp [h, hlo]
  · have h' : ¬(lo ≤ k ∧ k - lo = 0) := by omega
    simp_all

/-- Bit by bit: the open bits as drawn, OVERRUN in bit 14, BUSY in bit 0, every other bit 0 (R36, R49). -/
theorem getLsbD_statusWhileBusy (d : Word) (s : State) (k : Nat) :
    (statusWhileBusy d s).getLsbD k =
      ((d.getLsbD k && statusOpenMask.getLsbD k) || (decide (k = 14) && s.overrun) || (decide (k = 0) && s.busy)) := by
  rw [statusWhileBusy, BitVec.getLsbD_or, BitVec.getLsbD_or, BitVec.getLsbD_and,
    getLsbD_bitsAt_ofBool (by decide), getLsbD_bitsAt_ofBool (by decide)]

/-- The reserved bits 31:18, 15, 11 and 3:2 of STATUS read 0 while BUSY = 1 (R36). -/
theorem statusWhileBusy_reserved (d : Word) (s : State) {k : Nat}
    (hk : k = 2 ∨ k = 3 ∨ k = 11 ∨ k = 15 ∨ 18 ≤ k) : (statusWhileBusy d s).getLsbD k = false := by
  have hm : statusOpenMask.getLsbD k = false := by
    rw [statusOpenMask_getLsbD]
    exact decide_eq_false (by omega)
  simp only [getLsbD_statusWhileBusy, hm, show k ≠ 14 by omega, show k ≠ 0 by omega]
  simp

/-- A run of reserved bits of STATUS reads 0 while BUSY = 1 (R36). -/
theorem extractLsb'_statusWhileBusy_reserved (d : Word) (s : State) {lo len : Nat}
    (h : ∀ j < len, lo + j = 2 ∨ lo + j = 3 ∨ lo + j = 11 ∨ lo + j = 15 ∨ 18 ≤ lo + j) :
    (statusWhileBusy d s).extractLsb' lo len = 0 := by
  apply BitVec.eq_of_getLsbD_eq
  intro j hj
  rw [BitVec.getLsbD_extractLsb', statusWhileBusy_reserved d s (h j hj)]
  simp

/-- STATUS always shows BUSY exactly (R26, R49). -/
theorem regRead_status_busy (s : State) : (regRead .status s).1.getLsbD 0 = s.busy := by
  cases hb : s.busy with
  | true =>
    rw [regRead_open hb rfl, openValue, getLsbD_statusWhileBusy, hb]
    simp
  | false =>
    simp only [regRead, hb, regValue, statusWord, Bool.false_and, Bool.false_eq_true, if_false, BitVec.getLsbD_or,
      getLsbD_bitsAt]
    simp

/-! ### Decoding -/

/-- What form Z accepts: an OPERAND of 0 (R101). -/
theorem formZ_eq_ok {w : Word} {i j : Instr} : formZ w i = .ok j ↔ operandField w = 0 ∧ i = j := by
  unfold formZ
  split <;> simp_all

/-- What form B accepts: a zero OPERAND[23:8], imm8 passed on (R101). -/
theorem formB_eq_ok {w : Word} {f : Byte → Instr} {j : Instr} :
    formB w f = .ok j ↔ operandHighField w = 0 ∧ f (imm8Field w) = j := by
  unfold formB
  split <;> simp_all

/-- A word with the fields of a command is that command's word (R106). -/
theorem eq_encode_of_fields {w : Word} {i : Instr} (hop : opField w = i.op) (hhigh : operandHighField w = 0)
    (hlow : imm8Field w = i.operandByte) : w = encode i := by
  rw [word_eq_fields w, hop, hhigh, hlow, encode]
  simp [bitsAt]

/-- What form Z accepts is the word of the row's command (R101). -/
theorem eq_encode_of_formZ {w : Word} {i j : Instr} (h : formZ w i = .ok j) (hop : (opField w).toNat = i.op.toNat)
    (hi : i.operandByte = 0) : w = encode j := by
  obtain ⟨hz, rfl⟩ := formZ_eq_ok.1 h
  obtain ⟨hhigh, hlow⟩ := operandParts_of_zero hz
  exact eq_encode_of_fields (BitVec.eq_of_toNat_eq hop) hhigh (hlow.trans hi.symm)

/-- What form B accepts is the word of the row's command with that operand byte (R101). -/
theorem eq_encode_of_formB {w : Word} {f : Byte → Instr} {j : Instr} (h : formB w f = .ok j)
    (hop : ∀ b, (opField w).toNat = (f b).op.toNat) (hf : ∀ b, (f b).operandByte = b) : w = encode j := by
  obtain ⟨hhigh, rfl⟩ := formB_eq_ok.1 h
  exact eq_encode_of_fields (BitVec.eq_of_toNat_eq (hop _)) hhigh (hf _).symm

/-- The decoder reads every command back from its word (R105). -/
theorem decode_encode (i : Instr) : decode (encode i) = .ok i := by
  unfold decode
  rw [opField_encode]
  cases i
  case pushb b | pushhex b | lookup b =>
    exact formB_eq_ok.2 ⟨operandHighField_encode _, congrArg _ (imm8Field_encode _)⟩
  all_goals exact formZ_eq_ok.2 ⟨operandField_encode _ rfl, rfl⟩

/-- Different commands have different words (R105). -/
theorem encode_injective : Function.Injective encode := by
  intro i j h
  have hd := decode_encode i
  rw [h, decode_encode] at hd
  exact (Except.ok.inj hd).symm

/-- A word decodes only to the command it encodes (R105). -/
theorem eq_encode_of_decode {w : Word} {i : Instr} (h : decode w = .ok i) : w = encode i := by
  unfold decode at h
  split at h
  case h_3 hop | h_4 hop | h_7 hop => exact eq_encode_of_formB h (fun _ => hop) fun _ => rfl
  case h_13 => cases h
  all_goals next hop => exact eq_encode_of_formZ h hop rfl

/-! ### Commands and the error status -/

/-- The state with the two fields of R55 changed. -/
def State.withStatus (e : ErrCode) (o : Bool) (s : State) : State := { s with errcode := e, overrun := o }

/-- The state with OVERRUN changed. -/
def State.withOverrun (o : Bool) (s : State) : State := { s with overrun := o }

/-- Two conditionals on one test agree up to OVERRUN when their branches do. -/
theorem State.ite_withOverrun {c c' : Prop} [Decidable c] [Decidable c'] {o : Bool} {a a' b b' : State} (hc : c' ↔ c)
    (ha : a' = a.withOverrun o) (hb : b' = b.withOverrun o) :
    (if c' then a' else b') = (if c then a else b).withOverrun o := by
  subst ha hb
  by_cases h : c <;> simp [hc, h]

section

variable (e : ErrCode) (o : Bool) (s : State)

/-- `append` reads neither ERRCODE nor OVERRUN (R141). -/
theorem State.append_withStatus (b : Byte) : (s.withStatus e o).append b = (s.append b).withOverrun o :=
  State.ite_withOverrun Iff.rfl rfl rfl

/-- A hex digit reads neither ERRCODE nor OVERRUN (R143). -/
theorem State.pushNibble_withStatus (v : BitVec 4) :
    (s.withStatus e o).pushNibble v = (s.pushNibble v).withOverrun o :=
  State.ite_withOverrun Iff.rfl (State.append_withStatus e o { s with hexPend := false } _) rfl

/-- One more table entry reads neither ERRCODE nor OVERRUN (R122). -/
theorem State.addEntry_withStatus : (s.withStatus e o).addEntry = s.addEntry.withStatus e o := by
  obtain ⟨h, hs⟩ | ⟨h, hs⟩ := State.addEntry_cases s <;> rw [hs]
  · exact dif_pos h
  · exact dif_neg (Nat.not_lt.2 h)

/-- The checks of COMPRESS and HUMANIZE, and what follows them, agree up to OVERRUN (R213). -/
theorem State.checked_withStatus {a a' : State} (ha : a' = a.withOverrun o) :
    (match inputError (s.withStatus e o) with | some c => (s.withStatus e o).raise c | none => a') =
      (match inputError s with | some c => s.raise c | none => a).withOverrun o := by
  have h : inputError (s.withStatus e o) = inputError s := rfl
  rw [h, ha]
  cases inputError s <;> rfl

/-- Every command but CLRERR reads neither ERRCODE nor OVERRUN, and leaves OVERRUN (R55). -/
theorem execState_withStatus {i : Instr} (hi : i ≠ .clrerr) :
    execState i (s.withStatus e o) = (execState i s).withOverrun o := by
  cases i
  case clrerr => exact absurd rfl hi
  case nop | clrin | tblBegin | tblDefault => rfl
  case pushb b =>
    exact State.ite_withOverrun Iff.rfl rfl <| State.ite_withOverrun Iff.rfl rfl <|
      State.ite_withOverrun Iff.rfl rfl (State.append_withStatus e o s b)
  case pushhex c =>
    refine State.ite_withOverrun Iff.rfl rfl (State.ite_withOverrun Iff.rfl rfl ?_)
    cases hexval c with
    | none => rfl
    | some v => exact State.pushNibble_withStatus e o s v
  case compress => exact State.checked_withStatus e o s rfl
  case humanize => exact State.ite_withOverrun Iff.rfl (State.checked_withStatus e o s rfl) rfl
  case lookup b => exact State.ite_withOverrun Iff.rfl rfl rfl
  case tblWrite =>
    exact State.ite_withOverrun Iff.rfl (congrArg State.done (State.addEntry_withStatus e o s)) rfl
  case tblEnd => exact State.ite_withOverrun Iff.rfl (State.ite_withOverrun Iff.rfl rfl rfl) rfl

end

/-- Settles O45, by what each command reads: CLRERR by itself, the others by `execState_withStatus`. -/
theorem noCommandReadsErrorStatus : Obligations.NoCommandReadsErrorStatus := by
  unfold Obligations.NoCommandReadsErrorStatus
  intro i s t e o h
  obtain rfl := Host.Outcome.next.inj ((exec_eq_next i s).symm.trans h)
  by_cases hi : i = .clrerr
  · subst hi
    rfl
  · rw [if_neg hi]
    exact (exec_eq_next i _).trans (congrArg _ (execState_withStatus e o s hi))

/-! ### OVERRUN -/

/-- CLRERR clears OVERRUN, every other command leaves it (R34). -/
theorem exec_overrun {i : Instr} {s t : State} (h : exec i s = .next t) :
    t.overrun = if i = .clrerr then false else s.overrun :=
  congrArg State.overrun (Host.Outcome.next.inj (h.symm.trans (noCommandReadsErrorStatus i s t s.errcode s.overrun h)))

/-- Performing a word clears OVERRUN exactly when the word is CLRERR's, and never sets it (R34). -/
theorem perform_overrun {w : Word} {s t : State} (h : perform w s = .next t) :
    t.overrun = if w = encode .clrerr then false else s.overrun := by
  unfold perform at h
  split at h
  · next i hi =>
    obtain rfl := eq_encode_of_decode hi
    simp only [exec_overrun h, encode_injective.eq_iff]
  · next hi =>
    obtain rfl := Host.Outcome.next.inj h
    rw [if_neg fun hw => by rw [hw, decode_encode] at hi; cases hi]
    rfl

/-- What the engine's move can be: nothing while PEND is empty, else the pending word performed and PEND emptied (R20). -/
theorem engineMove_cases {s t : State} (h : engineMove s = .next t) :
    (s.pend = none ∧ t = s) ∨ ∃ w u, s.pend = some w ∧ perform w s = .next u ∧ t = u.retire := by
  unfold engineMove at h
  split at h
  · next hp => exact .inl ⟨hp, (Host.Outcome.next.inj h).symm⟩
  · next w hp =>
    obtain ⟨u, hu, -⟩ := perform_eq_next w s
    rw [hu] at h
    exact .inr ⟨w, u, hp, hu, (Host.Outcome.next.inj h).symm⟩

/-- A host's read while BUSY = 0 puts the register's value with the replies (R76, R88). -/
theorem hostRead_idle (r : Reg) {s : State} (h : s.pend = none) :
    hostRead r s = { s with replies := regValue r s :: s.replies } := by
  rw [hostRead, regRead_idle r s h]

/-- A poll of `wait` is a read of STATUS, after which the host goes on exactly when BUSY = 0 (R107). -/
theorem hostPoll_eq (s : State) :
    hostPoll s = hostRead .status { s with program := if s.busy then s.program else s.program.tail } := by
  rw [hostPoll, regRead_status_busy]
  obtain hp | ⟨w, hp⟩ := Option.eq_none_or_eq_some s.pend
  · simp only [State.not_busy_of_pend hp, Bool.false_eq_true, if_false]
    rw [hostRead_idle .status hp, hostRead_idle .status (s := { s with program := s.program.tail }) hp]
    rfl
  · simp only [State.busy_of_pend hp, if_true]

/-- What the host's move can be: nothing when no statement is left, the reset input, or an access to a register, the
program going on but for a `wait` while BUSY = 1 (R82, R107). -/
theorem hostMove_cases {s t : State} (h : hostMove s = .next t) :
    (s.program = [] ∧ t = s) ∨
    (∃ rest, s.program = .reset :: rest ∧ t = applyReset { s with program := rest }) ∨
    ∃ st rest r op p, s.program = st :: rest ∧ stmtOp st = some (r, op) ∧
      p = (if st = .wait ∧ s.busy = true then s.program else rest) ∧ t = hostAccess r op { s with program := p } := by
  unfold hostMove at h
  split at h
  case h_1 hp => exact .inl ⟨hp, (Host.Outcome.next.inj h).symm⟩
  case h_5 rest hp => exact .inr (.inl ⟨rest, hp, (Host.Outcome.next.inj h).symm⟩)
  all_goals refine .inr (.inr ?_)
  case h_2 r v rest hp => exact ⟨_, rest, r, .write v, rest, hp, rfl, rfl, (Host.Outcome.next.inj h).symm⟩
  case h_3 r rest hp => exact ⟨_, rest, r, .read, rest, hp, rfl, rfl, (Host.Outcome.next.inj h).symm⟩
  case h_4 rest hp =>
    rw [hostPoll_eq, hp] at h
    refine ⟨_, rest, .status, .read, _, hp, rfl, rfl, ?_⟩
    simpa [hp, hostAccess] using (Host.Outcome.next.inj h).symm
  case h_6 a rest hp =>
    split at h
    · next r hr => exact ⟨_, rest, r, a.op, rest, hp, by rw [stmtOp, hr]; rfl, rfl, (Host.Outcome.next.inj h).symm⟩
    · cases h

/-- The hazard of R245 in terms of the host's next register access. -/
theorem breaksWriteHazard_iff {s : State} {st : HostStmt} {rest : List HostStmt} {r : Reg} {op : BusOp}
    (hp : s.program = st :: rest) (hst : stmtOp st = some (r, op)) :
    BreaksWriteHazard s ↔ s.busy = true ∧ droppedWhileBusy r = true ∧ ∃ v, op = .write v := by
  constructor
  · rintro ⟨hb, st', rest', r', v, hp', hst', hd⟩
    obtain ⟨rfl, -⟩ := List.cons.inj (hp.symm.trans hp')
    obtain ⟨rfl, rfl⟩ := Prod.mk.inj (Option.some.inj (hst.symm.trans hst'))
    exact ⟨hb, hd, v, rfl⟩
  · rintro ⟨hb, hd, v, rfl⟩
    exact ⟨hb, st, rest, r, v, hp, hst, hd⟩

/-- A host with no statement left cannot break R245. -/
theorem not_breaksWriteHazard_of_nil {s : State} (hp : s.program = []) : ¬BreaksWriteHazard s := by
  rintro ⟨-, st, rest, r, v, hp', -⟩
  cases hp.symm.trans hp'

/-- The reset input is no register access, so it does not break R245. -/
theorem not_breaksWriteHazard_of_reset {s : State} {rest : List HostStmt} (hp : s.program = .reset :: rest) :
    ¬BreaksWriteHazard s := by
  rintro ⟨-, st, rest', r, v, hp', hst, -⟩
  obtain ⟨rfl, -⟩ := List.cons.inj (hp.symm.trans hp')
  cases hst

/-- An access sets OVERRUN exactly when it is a write that is dropped, and never clears it (R34). -/
theorem hostAccess_overrun (r : Reg) (op : BusOp) (s : State) :
    (hostAccess r op s).overrun = true ↔
      s.overrun = true ∨ (s.busy = true ∧ droppedWhileBusy r = true ∧ ∃ v, op = .write v) := by
  cases op with
  | read => simp [hostAccess]
  | write v => simp [hostAccess, regWrite_overrun]

/-- A host move other than the reset input keeps OVERRUN, or sets it by a dropped write (R34). -/
theorem hostMove_overrun {s t : State} (h : hostMove s = .next t) :
    (∃ rest, s.program = .reset :: rest ∧ t.overrun = false) ∨
      (t.overrun = true ↔ s.overrun = true ∨ BreaksWriteHazard s) := by
  obtain ⟨hp, rfl⟩ | ⟨rest, hp, rfl⟩ | ⟨st, rest, r, op, p, hp, hst, -, rfl⟩ := hostMove_cases h
  · exact .inr (by simp [not_breaksWriteHazard_of_nil hp])
  · exact .inl ⟨rest, hp, rfl⟩
  · exact .inr (by rw [hostAccess_overrun, breaksWriteHazard_iff hp hst]; rfl)

/-- An engine move clears OVERRUN exactly when it performs CLRERR, and never sets it (R34). -/
theorem engineMove_overrun {s t : State} (h : engineMove s = .next t) :
    t.overrun = if s.pend = some (encode .clrerr) then false else s.overrun := by
  obtain ⟨hp, rfl⟩ | ⟨w, u, hp, hu, rfl⟩ := engineMove_cases h
  · simp [hp]
  · simp [hp, perform_overrun hu]

/-- Settles O55, by `hostMove_overrun` and `engineMove_overrun`. -/
theorem overrunMarksDroppedWritesUntilCleared : Obligations.OverrunMarksDroppedWritesUntilCleared := by
  unfold Obligations.OverrunMarksDroppedWritesUntilCleared
  refine ⟨fun s t h h0 => ?_, fun s t h h1 h0 => ?_, fun s t h => ?_, rfl⟩
  · obtain ⟨rest, hp, ht⟩ | ht := hostMove_overrun h
    · simp [ht, not_breaksWriteHazard_of_reset hp]
    · simp [ht, h0]
  · obtain ⟨rest, hp, -⟩ | ht := hostMove_overrun h
    · exact ⟨rest, hp⟩
    · simp [h1, h0] at ht
  · rw [engineMove_overrun h]
    exact ⟨fun h0 => by simp [h0], fun h1 => by simp [h1]⟩

/-! ### The register reads and writes, and the engine's step -/

/-- Settles O51: the exact registers by `regRead_exact`, the open ones by `regRead_open`, STATUS bit by bit. -/
theorem busyReadsAreExactOrDrawn : Obligations.BusyReadsAreExactOrDrawn := by
  unfold Obligations.BusyReadsAreExactOrDrawn
  intro s w hw
  have hb : s.busy = true := State.busy_of_pend hw
  have hst : regRead .status s = (statusWhileBusy (busyDraw s.draws) s, { s with draws := s.draws + 1 }) :=
    regRead_open hb rfl
  rw [hst]
  refine ⟨regRead_exact s rfl, regRead_exact s rfl, regRead_exact s rfl, regRead_exact s rfl,
    fun k => regRead_exact s rfl, ?busy, ?overrun, extractLsb'_statusWhileBusy_reserved _ s (by omega),
    statusWhileBusy_reserved _ s (by omega), statusWhileBusy_reserved _ s (by omega),
    extractLsb'_statusWhileBusy_reserved _ s (by omega), fun k hk => ?drawn, fun r hr => ?opened, rfl⟩
  case busy => rw [← hb, ← regRead_status_busy, hst]
  case overrun =>
    rw [getLsbD_statusWhileBusy, show statusOpenMask.getLsbD 14 = false by decide]
    simp
  case drawn =>
    have hm : statusOpenMask.getLsbD k = true := by
      rw [statusOpenMask_getLsbD]
      exact decide_eq_true hk
    simp only [getLsbD_statusWhileBusy, hm, show k ≠ 14 by omega, show k ≠ 0 by omega]
    simp
  case opened => obtain rfl | rfl | rfl | rfl | rfl | rfl := hr <;> exact regRead_open hb rfl

/-- The engine's move with a command pending is the command's meaning, and then PEND is empty (R20). -/
theorem engineMove_of_decode {s t : State} {w : Word} {i : Instr} (hp : s.pend = some w) (hd : decode w = .ok i)
    (h : exec i s = .next t) : engineMove s = .next { t with pend := none } := by
  simp only [engineMove, hp, perform, hd, h]
  rfl

/-- Settles O6: whichever way the engine gets the move, the step is `engineMove`. -/
theorem stepPerformsThePendingCommand : Obligations.StepPerformsThePendingCommand := by
  unfold Obligations.StepPerformsThePendingCommand
  intro s t w i hp hd
  refine ⟨fun hh h => ?_, fun ts hh ht h => ?_, fun hh ht hw h => ?_⟩
  · have he : engineMove s = retired (perform w s) := by rw [engineMove, hp]
    rw [step_engine hp hh, ← he]
    exact engineMove_of_decode hp hd h
  · rw [step_turn hp hh ht]
    exact engineMove_of_decode (s := { s with turns := ts }) hp hd h
  · rw [step_engine_due hp hh ht hw]
    exact engineMove_of_decode (s := { s with waited := 0, engineTurns := s.engineTurns + 1 }) hp hd h

/-- N reads back as itself: MAX_N fits IN_COUNT[23:0] (R7, R37). -/
theorem toNat_inCount_register {n : Nat} (hn : n ≤ maxN) : ((BitVec.ofNat 24 n).setWidth 32).toNat = n := by
  have := maxN_le
  rw [BitVec.toNat_setWidth_of_le (by decide), BitVec.toNat_ofNat, Nat.mod_eq_of_lt (by omega)]

/-- OUT_CK as a number (R43). -/
theorem toNat_outCkWord (s : State) :
    (outCkWord s).toNat = if (s.outKind = .checksums ∨ s.outKind = .words) ∧
      s.outIndex.toNat < s.outCount.toNat then (Cells.get s.ck s.outIndex.toNat).toNat else 0 := by
  have hk : s.outKind ≠ .nothing ↔ s.outKind = .checksums ∨ s.outKind = .words := by cases s.outKind <;> simp
  simp only [outCkWord, hk]
  split
  · exact BitVec.toNat_setWidth_of_le (by decide)
  · rfl

/-- Settles O50: with nothing pending, `regRead` is `regValue`. -/
theorem idleReadsReturnTheRegisters : Obligations.IdleReadsReturnTheRegisters := by
  unfold Obligations.IdleReadsReturnTheRegisters
  intro s hp
  have h24 (x : BitVec 24) : (x.setWidth 32).toNat = x.toNat := BitVec.toNat_setWidth_of_le (by decide)
  have hr (r : Reg) : regRead r s = (regValue r s, s) := regRead_idle r s hp
  simp_rw [hr]
  exact ⟨fun _ => trivial, rfl, rfl, rfl, toNat_inCount_register, h24 _, rfl, rfl,
    h24 _, h24 _, toNat_outCkWord s, rfl, rfl, fun _ => rfl⟩

/-- Settles O52: CMD takes the word while BUSY = 0, and is one of the registers of `regWrite_busy` and of
`regRead_exact`. -/
theorem cmdWriteIsAcceptedOrDropped : Obligations.CmdWriteIsAcceptedOrDropped := by
  unfold Obligations.CmdWriteIsAcceptedOrDropped
  intro s v
  refine ⟨fun hp => ?_, fun w hp => regWrite_busy v (State.busy_of_pend hp) rfl,
    congrArg Prod.fst (regRead_exact s rfl)⟩
  have hw : regWrite .cmd v s = { s with pend := some v } := by
    simp only [regWrite, State.not_busy_of_pend hp, Bool.false_eq_true, if_false]
  exact ⟨hw, by rw [hw]; rfl⟩

/-- Settles O53: each register stores while BUSY = 0, and is one of the registers of `regWrite_busy`. -/
theorem operandRegistersStoreOnlyWhileIdle : Obligations.OperandRegistersStoreOnlyWhileIdle := by
  unfold Obligations.OperandRegistersStoreOnlyWhileIdle
  intro s v
  refine ⟨fun hp => ⟨v.setWidth 24, v, v.setWidth 24, ?_⟩, fun w r hp hr => ?_⟩
  · simp [regWrite, State.not_busy_of_pend hp]
  · have hd : droppedWhileBusy r = true := by obtain rfl | rfl | rfl := hr <;> rfl
    exact regWrite_busy v (State.busy_of_pend hp) hd

/-- Settles O54, by `regWrite_ignored` and `regRead_exact`. -/
theorem readOnlyAndReservedWritesAreIgnored : Obligations.ReadOnlyAndReservedWritesAreIgnored := by
  unfold Obligations.ReadOnlyAndReservedWritesAreIgnored
  intro s v r hr
  have hd : droppedWhileBusy r = false := by
    obtain rfl | rfl | rfl | rfl | rfl | rfl | rfl | rfl | ⟨k, rfl⟩ := hr <;> rfl
  exact ⟨regWrite_ignored v s hd, fun k => regRead_exact s rfl⟩

end Sys2Proof.Machine

/-! PROOFS. The statements of the family 20_memory.md. Before them, each said once: which access goes to which register, what
a host read changes, when the host's move completes, what a step can be while a command is pending, and that no host move
but the reset input touches PEND then or lengthens the wait for the engine. -/

namespace Sys2Proof.Machine

/-! ### Where an access goes -/

/-- The window's map by offset is the one by register, read backwards (10_state.md section 2). -/
theorem regAt_eq_some_iff {off : Nat} {r : Reg} : regAt off = some r ↔ off = regOffset r := by
  constructor
  · intro h
    unfold regAt at h
    split at h <;> cases h <;> rfl
  · rintro rfl
    cases r
    case reserved k =>
      have hk : ∀ k : Fin 4, regAt (0x30 + 4 * k.val) = some (.reserved k) := by decide
      exact hk k
    all_goals rfl

/-- Every multiple of 4 inside the window is the offset of a register (10_state.md section 2, R46). -/
theorem exists_regOffset {off : Nat} (hlt : off < 64) (hmod : off % 4 = 0) : ∃ r, off = regOffset r := by
  have hall : ∀ k : Fin 16, (regAt (4 * k.val)).isSome = true := by decide
  obtain ⟨r, hr⟩ := Option.isSome_iff_exists.1 (hall ⟨off / 4, by omega⟩)
  refine ⟨r, ?_⟩
  rw [← regAt_eq_some_iff.1 hr]
  show off = 4 * (off / 4)
  omega

/-- What R71 admits, as a proposition. -/
theorem admitted_iff {a : Access} :
    admitted a = true ↔ a.width = .w32 ∧ base ≤ a.addr ∧ a.addr < base + 64 ∧ a.addr % 4 = 0 := by
  simp [admitted, and_assoc]

/-- An access goes to the register at its offset, when R71 admits it. -/
theorem accessReg_eq_some_iff {a : Access} {r : Reg} :
    accessReg a = some r ↔ admitted a = true ∧ a.addr = base + regOffset r := by
  unfold accessReg
  split
  · next ha =>
    obtain ⟨-, hlo, -, -⟩ := admitted_iff.1 ha
    rw [regAt_eq_some_iff]
    exact ⟨fun h => ⟨ha, by omega⟩, fun ⟨_, h⟩ => by omega⟩
  · next ha => simp [ha]

/-- An admitted access goes to some register, since BASE is a multiple of 4 (R11, R71). -/
theorem exists_accessReg {a : Access} (ha : admitted a = true) : ∃ r, accessReg a = some r := by
  obtain ⟨-, hlo, hhi, hmod⟩ := admitted_iff.1 ha
  have hbase := base_mod
  obtain ⟨r, hr⟩ := exists_regOffset (off := a.addr - base) (by omega) (by omega)
  exact ⟨r, accessReg_eq_some_iff.2 ⟨ha, by omega⟩⟩

/-- An access that R71 does not admit goes nowhere (R72). -/
theorem accessReg_eq_none {a : Access} (ha : ¬admitted a = true) : accessReg a = none := if_neg ha

/-! ### What a host access changes -/

/-- A host read puts its value with the replies and may draw a free value; nothing else changes (R76, R88). -/
theorem hostRead_frame (r : Reg) (s : State) :
    hostRead r s = { s with replies := (regRead r s).1 :: s.replies, draws := (hostRead r s).draws } := by
  obtain h | h := regRead_state r s <;> simp [hostRead, h]

/-- The value read does not depend on what the host does next. -/
theorem regRead_program (r : Reg) (p : List HostStmt) (s : State) :
    (regRead r { s with program := p }).1 = (regRead r s).1 := by
  rw [regRead, regRead, apply_ite Prod.fst, apply_ite Prod.fst]
  cases r <;> rfl

/-- While BUSY = 1 no access touches PEND: a write to CMD is dropped (R25). -/
theorem hostAccess_pend_of_busy {s : State} (hb : s.busy = true) (r : Reg) (op : BusOp) :
    (hostAccess r op s).pend = s.pend := by
  cases op with
  | read => exact (congrArg State.pend (hostRead_frame r s) :)
  | write v =>
    obtain h | ⟨-, h⟩ | ⟨hb', -⟩ := regWrite_cases r v s
    · exact (congrArg State.pend h :)
    · exact (congrArg State.pend h :)
    · simp [hb] at hb'

/-- An access leaves it to the turns how long the engine still waits. -/
@[simp] theorem hostMovesLeft_hostAccess (r : Reg) (op : BusOp) (s : State) :
    hostMovesLeft (hostAccess r op s) = hostMovesLeft s := by
  cases op with
  | read => exact (congrArg hostMovesLeft (hostRead_frame r s) :)
  | write v =>
    obtain h | ⟨-, h⟩ | ⟨-, h | h | h | h⟩ := regWrite_cases r v s <;> exact (congrArg hostMovesLeft h :)

/-! ### The moves -/

/-- The host's move completes whenever the host can move (R72). -/
theorem exists_hostMove {s : State} (hh : hostReady s = true) : ∃ t, hostMove s = .next t := by
  unfold hostMove
  split
  case h_6 a rest hp =>
    simp only [hostReady, hp] at hh
    obtain ⟨r, hr⟩ := Option.isSome_iff_exists.1 hh
    exact ⟨_, by rw [hr]⟩
  all_goals exact ⟨_, rfl⟩

/-- A host move while a command is pending: the reset input discards the command (R242); any other leaves it pending, and
the engine's wait no longer. -/
theorem hostMove_pending {s t : State} {w : Word} (hp : s.pend = some w) (h : hostMove s = .next t) :
    (s.program = .reset :: t.program ∧ t.pend = none) ∨ (t.pend = some w ∧ hostMovesLeft t = hostMovesLeft s) := by
  obtain ⟨-, rfl⟩ | ⟨rest, hprog, rfl⟩ | ⟨-, -, r, op, p, -, -, -, rfl⟩ := hostMove_cases h
  · exact .inr ⟨hp, rfl⟩
  · exact .inl ⟨hprog, rfl⟩
  · have hp' : ({ s with program := p } : State).pend = some w := hp
    exact .inr ⟨(hostAccess_pend_of_busy (State.busy_of_pend hp') r op).trans hp', hostMovesLeft_hostAccess r op _⟩

/-- The engine's move performs the pending command, empties PEND and leaves the host where it is (R20). -/
theorem engineMove_pending {s : State} {w : Word} (hp : s.pend = some w) :
    ∃ t, perform w s = .next t ∧ engineMove s = .next { t with pend := none } ∧
      t.program = s.program ∧ t.turns = s.turns := by
  obtain ⟨t, ht, -, hprog, hturns, -⟩ := perform_eq_next w s
  exact ⟨t, ht, by simp only [engineMove, hp, ht]; rfl, hprog, hturns⟩

/-- With a command pending and the host unable to move, a step is the engine's move (R82). -/
theorem step_eq_engineMove {s : State} {w : Word} (hp : s.pend = some w) (hh : hostReady s = false) :
    step s = engineMove s := by
  rw [step_engine hp hh, engineMove, hp]

/-- With nothing pending and the host unable to move there is no move (R72, R247). -/
theorem step_eq_noMove {s : State} (hp : s.pend = none) (hh : hostReady s = false) : step s = noMove s := by
  simp [step, systemMove, hh, State.not_busy_of_pend hp]

/-- What a step can be while a command is pending: but for the record of turns, the engine's move, or a move of the host
that brings the engine's turn nearer (R82, R250). -/
theorem step_pending_cases {s : State} {w : Word} (hp : s.pend = some w) :
    ∃ x, x = { s with turns := x.turns, waited := x.waited, engineTurns := x.engineTurns } ∧
      (step s = engineMove x ∨ (hostReady s = true ∧ hostMovesLeft x < hostMovesLeft s ∧ step s = hostMove x)) := by
  cases hh : hostReady s with
  | false => exact ⟨s, rfl, .inl (step_eq_engineMove hp hh)⟩
  | true =>
    cases hts : s.turns with
    | cons a ts =>
      refine ⟨{ s with turns := ts }, rfl, ?_⟩
      rw [step_turn hp hh hts]
      cases a with
      | engine => exact .inl rfl
      | host => exact .inr ⟨rfl, by simp only [hostMovesLeft, hts, List.length_cons]; omega, rfl⟩
    | nil =>
      obtain hw | hw := Nat.lt_or_ge s.waited (hostMovesBefore s.engineTurns)
      · refine ⟨{ s with waited := s.waited + 1 }, rfl, .inr ⟨rfl, ?_, step_waiting hp hh hts hw⟩⟩
        simp only [hostMovesLeft]
        omega
      · exact ⟨{ s with waited := 0, engineTurns := s.engineTurns + 1 }, rfl, .inl (step_engine_due hp hh hts hw)⟩

/-- The host's move at `rd` is the read (R107). -/
theorem hostMove_rd {s : State} {r : Reg} {rest : List HostStmt} (hprog : s.program = .rd r :: rest) :
    hostMove s = .next (hostRead r { s with program := rest }) := by
  simp only [hostMove, hprog]

/-- The host's move at `wait` is a read of STATUS, which goes on exactly when BUSY = 0 (R107). -/
theorem hostMove_wait {s : State} {rest : List HostStmt} (hprog : s.program = .wait :: rest) :
    hostMove s = .next (hostRead .status { s with program := if s.busy then s.program else rest }) := by
  simp only [hostMove, hprog, hostPoll_eq, List.tail_cons]

/-- The poll of `wait` once nothing is pending: it reads STATUS and goes on (R83). -/
theorem step_wait_idle {s : State} {rest : List HostStmt} (hp : s.pend = none) (hprog : s.program = .wait :: rest) :
    step s = .next { s with program := rest, replies := statusWord s :: s.replies } := by
  rw [step_host hp (by rw [hostReady, hprog]), hostMove_wait hprog, State.not_busy_of_pend hp]
  exact congrArg _ (hostRead_idle .status hp)

/-! ### The statements -/

/-- Settles O48, by `accessReg_eq_some_iff`: an admitted access is its register's, another leaves the host unable to move. -/
theorem onlyAlignedWordAccessesAreAdmitted : Obligations.OnlyAlignedWordAccessesAreAdmitted := by
  unfold Obligations.OnlyAlignedWordAccessesAreAdmitted
  refine ⟨fun a r => by rw [accessReg_eq_some_iff, admitted_iff]; simp only [and_assoc], fun a s rest hprog => ?_⟩
  rw [← admitted_iff]
  refine ⟨fun ha hp => ?_, fun ha => ?_⟩
  · obtain ⟨r, hr⟩ := exists_accessReg ha
    have hh : hostReady s = true := by simp only [hostReady, hprog, hr, Option.isSome_some]
    refine ⟨r, (accessReg_eq_some_iff.1 hr).2, ?_⟩
    rw [step_host hp hh]
    simp only [hostMove, hprog, hr]
    rfl
  · have hh : hostReady s = false := by simp only [hostReady, hprog, accessReg_eq_none ha, Option.isSome_none]
    refine ⟨fun hp t ht => ?_, fun w hp => ?_⟩
    · rw [step_eq_noMove hp hh, noMove, hprog] at ht
      cases ht
    · obtain ⟨t, -, he, htp, -⟩ := engineMove_pending hp
      have hs := step_eq_engineMove hp hh
      exact ⟨hs, _, hs.trans he, htp, rfl⟩

/-- The engine's turn comes: by strong induction on the host moves that may come before it (R250). -/
theorem pending_performed_within {s : State} {w : Word} (hp : s.pend = some w) :
    ∃ n u v, n ≤ hostMovesLeft s ∧ runSteps n s = .next u ∧ u.pend = some w ∧ step u = .next v ∧ v.pend = none ∧
      ((∃ x t, x = { u with turns := x.turns, waited := x.waited, engineTurns := x.engineTurns } ∧
          perform w x = .next t ∧ v = { t with pend := none }) ∨
        u.program = .reset :: v.program) := by
  induction hk : hostMovesLeft s using Nat.strong_induction_on generalizing s with
  | h k ih =>
    obtain ⟨x, hx, hs⟩ := step_pending_cases hp
    have hxp : x.pend = some w := (congrArg State.pend hx).trans hp
    obtain hs | ⟨hh, hlt, hs⟩ := hs
    · obtain ⟨t, ht, he, -⟩ := engineMove_pending hxp
      exact ⟨0, s, _, Nat.zero_le _, rfl, hp, hs.trans he, rfl, .inl ⟨x, t, hx, ht, rfl⟩⟩
    · obtain ⟨t, ht⟩ := exists_hostMove ((congrArg hostReady hx).trans hh)
      obtain ⟨hreset, htp⟩ | ⟨htp, htl⟩ := hostMove_pending hxp ht
      · exact ⟨0, s, t, Nat.zero_le _, rfl, hp, hs.trans ht, htp,
          .inr ((congrArg State.program hx).symm.trans hreset)⟩
      · obtain ⟨n, u, v, hn, hrun, hend⟩ := ih _ (by omega) htp rfl
        exact ⟨n + 1, u, v, by omega, by rw [runSteps, hs, ht]; exact hrun, hend⟩

/-- Settles O58: the engine's turn by `engineMove_pending` and the poll after it by `step_wait_idle`; that the turn comes by
`pending_performed_within`. -/
theorem engineTurnCompletesAWaitedCommand : Obligations.EngineTurnCompletesAWaitedCommand := by
  unfold Obligations.EngineTurnCompletesAWaitedCommand
  refine ⟨fun s w rest ts hp hprog hts => ?_, fun s w hp => pending_performed_within hp⟩
  have hh : hostReady s = true := by rw [hostReady, hprog]
  obtain ⟨t, -, he, htp, htt⟩ := engineMove_pending (s := { s with turns := ts }) hp
  exact ⟨_, _, (step_turn hp hh hts).trans he, rfl, htt, step_wait_idle rfl (htp.trans hprog), rfl, rfl⟩

/-- Settles O56: the move at `rd` is `hostRead`, which changes what `hostRead_frame` says. -/
theorem hostReadChangesNothingOfTheBlock : Obligations.HostReadChangesNothingOfTheBlock := by
  unfold Obligations.HostReadChangesNothingOfTheBlock
  intro s r rest hprog
  have hh : hostReady s = true := by rw [hostReady, hprog]
  have hframe := hostRead_frame r { s with program := rest }
  refine ⟨⟨_, hostMove_rd hprog, ?_⟩, fun hp => step_host hp hh, fun w ts hp hts => step_turn hp hh hts⟩
  rw [hframe, regRead_program]
  exact ⟨rfl, rfl⟩

/-- Settles O57: the poll is `hostMove_wait`, a read of STATUS, and `rest` is not the program it is the tail of. -/
theorem waitGoesOnExactlyWhenNothingIsPending : Obligations.WaitGoesOnExactlyWhenNothingIsPending := by
  unfold Obligations.WaitGoesOnExactlyWhenNothingIsPending
  intro s rest hprog
  have hframe := hostRead_frame .status { s with program := if s.busy then s.program else rest }
  have hne : rest ≠ s.program := by rw [hprog]; exact (List.cons_ne_self _ _).symm
  refine ⟨_, hostMove_wait hprog, ?_⟩
  rw [hframe]
  refine ⟨?_, ?_, rfl⟩
  · cases hp : s.pend <;> simp [State.busy, hp, hne.symm]
  · cases hp : s.pend <;> simp [State.busy, hp, hne]

end Sys2Proof.Machine

/-! PROOFS. The statements of the family 30_encoding.md. Before them, each said once: what a row of the opcode table is, as
words of commands; which words decode; what performing an illegal word does. -/

namespace Sys2Proof.Machine

/-! ### The rows of the opcode table -/

/-- The word of a command selects its own row and no other (R103). -/
theorem rows_selected_by_encode (i : Instr) :
    ((opcodeRows.filter fun r => r.selects (encode i)).map OpcodeRow.mnemonic) = [i.mnemonic] :=
  match i with
  | .nop => Laws.EncodingRow.nop
  | .clrin => Laws.EncodingRow.clrin
  | .pushb b => Laws.EncodingRow.pushb b
  | .pushhex b => Laws.EncodingRow.pushhex b
  | .compress => Laws.EncodingRow.compress
  | .humanize => Laws.EncodingRow.humanize
  | .lookup b => Laws.EncodingRow.lookup b
  | .tblBegin => Laws.EncodingRow.tblBegin
  | .tblWrite => Laws.EncodingRow.tblWrite
  | .tblEnd => Laws.EncodingRow.tblEnd
  | .tblDefault => Laws.EncodingRow.tblDefault
  | .clrerr => Laws.EncodingRow.clrerr

/-- The mask of form Z keeps the whole word (R103). -/
theorem and_maskZ (w : Word) : w &&& 0xFFFFFFFF = w := BitVec.and_allOnes

/-- What the mask of form B leaves out of a word is imm8 (R101, R103). -/
theorem eq_and_maskB_or_imm8Field (w : Word) : w = (w &&& 0xFFFFFF00) ||| bitsAt 0 (imm8Field w) := by
  have hmask : (0xFFFFFF00 : Word) = bitsAt 8 (BitVec.allOnes 24) := by decide
  apply BitVec.eq_of_getLsbD_eq
  intro k hk
  rw [hmask]
  simp only [imm8Field, BitVec.getLsbD_or, BitVec.getLsbD_and, getLsbD_bitsAt, BitVec.getLsbD_extractLsb',
    BitVec.getLsbD_allOnes]
  by_cases h8 : 8 ≤ k
  · simp [hk, h8, show k - 8 < 24 by omega, show ¬k < 8 by omega]
  · simp [hk, h8, show k < 8 by omega]

/-- A row of the opcode table is the word of one command in form Z, or the words of one command for every imm8 in
form B (R101, R103). -/
theorem opcodeRow_cases {r : OpcodeRow} (hr : r ∈ opcodeRows) :
    (∃ i : Instr, r.mask = 0xFFFFFFFF ∧ r.pattern = encode i) ∨
      ∃ (f : Byte → Instr) (op : Byte), r.mask = 0xFFFFFF00 ∧ r.pattern = bitsAt 24 op ∧
        ∀ b, encode (f b) = bitsAt 24 op ||| bitsAt 0 b := by
  simp only [opcodeRows, List.mem_cons, List.not_mem_nil, or_false] at hr
  obtain rfl | rfl | rfl | rfl | rfl | rfl | rfl | rfl | rfl | rfl | rfl | rfl := hr
  · exact .inl ⟨.nop, rfl, rfl⟩
  · exact .inl ⟨.clrin, rfl, rfl⟩
  · exact .inr ⟨.pushb, 0x02, rfl, rfl, fun _ => rfl⟩
  · exact .inr ⟨.pushhex, 0x03, rfl, rfl, fun _ => rfl⟩
  · exact .inl ⟨.compress, rfl, rfl⟩
  · exact .inl ⟨.humanize, rfl, rfl⟩
  · exact .inr ⟨.lookup, 0x06, rfl, rfl, fun _ => rfl⟩
  · exact .inl ⟨.tblBegin, rfl, rfl⟩
  · exact .inl ⟨.tblWrite, rfl, rfl⟩
  · exact .inl ⟨.tblEnd, rfl, rfl⟩
  · exact .inl ⟨.tblDefault, rfl, rfl⟩
  · exact .inl ⟨.clrerr, rfl, rfl⟩

/-- A word that selects a row is the word of a command (R103). -/
theorem exists_encode_of_selects {r : OpcodeRow} {w : Word} (hr : r ∈ opcodeRows) (h : r.selects w = true) :
    ∃ i, w = encode i := by
  have hw : w &&& r.mask = r.pattern := eq_of_beq h
  obtain ⟨i, hm, hp⟩ | ⟨f, op, hm, hp, hf⟩ := opcodeRow_cases hr
  · exact ⟨i, by rw [← hp, ← hw, hm, and_maskZ]⟩
  · exact ⟨f (imm8Field w), by rw [hf, ← hp, ← hw, hm, ← eq_and_maskB_or_imm8Field]⟩

/-- An illegal word selects no row (R103, R104). -/
theorem rows_selected_by_illegal {w : Word} {e : DecodeReject} (h : decode w = .error e) :
    (opcodeRows.filter fun r => r.selects w) = [] := by
  rw [List.filter_eq_nil_iff]
  intro r hr hsel
  obtain ⟨i, rfl⟩ := exists_encode_of_selects hr hsel
  rw [decode_encode] at h
  cases h

/-! ### The illegal words -/

/-- The illegal words of R104 (a), (b) and (c), by the word's OP and OPERAND as numbers. -/
def IllegalWord (w : Word) : Prop :=
  let op := w.toNat / 2 ^ 24
  let operand := w.toNat % 2 ^ 24
  (op = 0x07 ∨ op = 0x0C ∨ op = 0x0D ∨ op = 0x0E ∨ 0x10 ≤ op) ∨
    ((op = 0x00 ∨ op = 0x01 ∨ op = 0x04 ∨ op = 0x05 ∨ op = 0x08 ∨ op = 0x09 ∨ op = 0x0A ∨ op = 0x0B ∨ op = 0x0F) ∧
      operand ≠ 0) ∨
    ((op = 0x02 ∨ op = 0x03 ∨ op = 0x06) ∧ operand / 2 ^ 8 ≠ 0)

/-- Form Z rejects a word whose OPERAND is not 0 (R104 b). -/
theorem exists_formZ_error {w : Word} {i : Instr} : (∃ e, formZ w i = .error e) ↔ w.toNat % 2 ^ 24 ≠ 0 := by
  rw [← toNat_operandField, formZ]
  split
  · next h => simp [h]
  · next h => exact ⟨fun _ h0 => h (BitVec.eq_of_toNat_eq h0), fun _ => ⟨_, rfl⟩⟩

/-- Form B rejects a word whose OPERAND[23:8] is not 0 (R104 c). -/
theorem exists_formB_error {w : Word} {f : Byte → Instr} :
    (∃ e, formB w f = .error e) ↔ w.toNat % 2 ^ 24 / 2 ^ 8 ≠ 0 := by
  rw [← toNat_operandHighField, formB]
  split
  · next h => simp [h]
  · next h => exact ⟨fun _ h0 => h (BitVec.eq_of_toNat_eq h0), fun _ => ⟨_, rfl⟩⟩

/-- The words that do not decode are the illegal ones, by the decoder's rows: form B, form Z, and no row at all (R104). -/
theorem exists_decode_error_iff (w : Word) : (∃ e, decode w = .error e) ↔ IllegalWord w := by
  unfold decode IllegalWord
  rw [toNat_opField]
  split
  case h_3 | h_4 | h_7 => rw [exists_formB_error]; omega
  case h_13 =>
    simp only [imp_false] at *
    exact ⟨fun _ => by omega, fun _ => ⟨_, rfl⟩⟩
  all_goals rw [exists_formZ_error]; omega

/-- Performing an illegal word writes ERRCODE and nothing else (R202). -/
theorem perform_of_illegal {w : Word} (h : IllegalWord w) (s : State) :
    perform w s = .next { s with errcode := .illegalCommand } := by
  obtain ⟨e, he⟩ := (exists_decode_error_iff w).2 h
  rw [perform, he]
  rfl

/-! ### The statements -/

/-- Settles O2: a word that decodes is the word of its command (`rows_selected_by_encode`), and one that does not is that of
none (`rows_selected_by_illegal`). -/
theorem opcodeTableSelectsTheDecodedCommand : Obligations.OpcodeTableSelectsTheDecodedCommand := by
  unfold Obligations.OpcodeTableSelectsTheDecodedCommand
  intro w
  cases hd : decode w with
  | ok i => rw [eq_encode_of_decode hd]; exact rows_selected_by_encode i
  | error e => exact congrArg (List.map OpcodeRow.mnemonic) (rows_selected_by_illegal hd)

/-- Settles O3, by `exists_decode_error_iff` and `perform_of_illegal`; the step is then the engine's. -/
theorem illegalWordsRaiseIllegalCommandOnly : Obligations.IllegalWordsRaiseIllegalCommandOnly := by
  unfold Obligations.IllegalWordsRaiseIllegalCommandOnly
  refine fun w => ⟨exists_decode_error_iff w, fun hill s => ?_⟩
  have hperf := perform_of_illegal hill s
  refine ⟨hperf, fun hp hh => ?_⟩
  rw [step_engine hp hh, hperf]
  rfl

/-- Settles O60: LOADTBL is well formed exactly with 256 tokens, and then its parts are written out (R108). -/
theorem loadtblExpandsToItsLoad : Obligations.LoadtblExpandsToItsLoad := by
  unfold Obligations.LoadtblExpandsToItsLoad
  intro ts
  have hwf : (HostMacro.loadtbl ts).wellFormed = true ↔ ts.length = 256 := decide_eq_true_iff
  have hentry : loadEntry = fun t => [.wr .data t, .wr .cmd 0x09000000, .wait] := rfl
  rw [expandMacro, List.flatMap_def, hentry]
  simp only [hwf]
  rfl

end Sys2Proof.Machine

/-! PROOFS. The statements of the family 40_construction.md. Before them, each said once: the input loaders and COMPRESS
commute with a change of the table, every command but the table commands keeps it, what a table command does in each of its
cases, and how far an open load has come. -/

namespace Sys2Proof.Machine

/-! ### The table beside the other commands -/

/-- The commands that neither read nor write the table, its status or its counters (R127, R200, R201). -/
def ignoresTable : Instr → Bool
  | .nop | .clrin | .pushb _ | .pushhex _ | .compress | .clrerr => true
  | .humanize | .lookup _ | .tblBegin | .tblWrite | .tblEnd | .tblDefault => false

section

variable (s u : State)

/-- Two conditionals on one test agree up to the table when their branches do. -/
theorem State.ite_withTableOf {c : Prop} [Decidable c] {a a' b b' : State} (ha : a' = a.withTableOf u)
    (hb : b' = b.withTableOf u) : (if c then a' else b') = (if c then a else b).withTableOf u := by
  rw [ha, hb, ← apply_ite (State.withTableOf · u)]

/-- `append` does not touch the table (R141). -/
theorem State.append_withTableOf (b : Byte) : (s.withTableOf u).append b = (s.append b).withTableOf u :=
  State.ite_withTableOf u rfl rfl

/-- A hex digit does not touch the table (R143). -/
theorem State.pushNibble_withTableOf (v : BitVec 4) :
    (s.withTableOf u).pushNibble v = (s.pushNibble v).withTableOf u :=
  State.ite_withTableOf u (State.append_withTableOf { s with hexPend := false } u _) rfl

/-- NOP, CLRERR, the input loaders and COMPRESS do the same whatever the table is, and leave it alone (R127). -/
theorem execState_withTableOf {i : Instr} (hi : ignoresTable i = true) :
    execState i (s.withTableOf u) = (execState i s).withTableOf u := by
  cases i
  case nop | clrin | clrerr => rfl
  case pushb b =>
    exact State.ite_withTableOf u rfl <| State.ite_withTableOf u rfl <|
      State.ite_withTableOf u rfl (State.append_withTableOf s u b)
  case pushhex c =>
    refine State.ite_withTableOf u rfl (State.ite_withTableOf u rfl ?_)
    cases hexval c with
    | none => rfl
    | some v => exact State.pushNibble_withTableOf s u v
  case compress =>
    have he : inputError (s.withTableOf u) = inputError s := rfl
    simp only [execState, exec, execCompress, he]
    cases inputError s <;> rfl
  all_goals cases hi

end

/-- Only the table commands write the table, its status and its counters (R30, R31, R39, R54). -/
theorem execState_keeps_table {i : Instr} (hi : isTableCommand i = false) (s : State) :
    execState i s = (execState i s).withTableOf s := by
  cases i
  case tblBegin | tblWrite | tblEnd | tblDefault => cases hi
  case lookup b => exact State.ite_withTableOf s rfl rfl
  case humanize =>
    refine State.ite_withTableOf s ?_ rfl
    cases inputError s <;> rfl
  all_goals exact execState_withTableOf s s rfl

/-! ### The table commands, case by case -/

section

variable {s : State}

/-- A TBL_WRITE with no load open (R122). -/
theorem exec_tblWrite_closed (hl : s.tblLoading = false) :
    exec .tblWrite s = .next { s with errcode := .tableState } :=
  congrArg Host.Outcome.next (if_neg (ne_true_of_eq_false hl))

/-- A TBL_WRITE while fewer than 256 entries stand in the open load (R122). -/
theorem exec_tblWrite_room (hl : s.tblLoading = true) (hc : s.count < 256) :
    exec .tblWrite s =
      .next { s with tbl := s.tbl.set s.count s.data hc, count := s.count + 1, errcode := .success } :=
  congrArg Host.Outcome.next ((if_pos hl).trans (congrArg State.done (dif_pos hc)))

/-- A TBL_WRITE once 256 entries stand in the open load (R122). -/
theorem exec_tblWrite_full (hl : s.tblLoading = true) (hc : 256 ≤ s.count) :
    exec .tblWrite s = .next { s with excess := true, errcode := .success } :=
  congrArg Host.Outcome.next ((if_pos hl).trans (congrArg State.done (dif_neg (Nat.not_lt.2 hc))))

/-- A TBL_END with no load open (R123). -/
theorem exec_tblEnd_closed (hl : s.tblLoading = false) :
    exec .tblEnd s = .next { s with errcode := .tableState } :=
  congrArg Host.Outcome.next (if_neg (ne_true_of_eq_false hl))

/-- A TBL_END after exactly 256 entries (R123). -/
theorem exec_tblEnd_exact (hl : s.tblLoading = true) (hc : s.count = 256 ∧ s.excess = false) :
    exec .tblEnd s = .next { s with tblLoading := false, tblValid := true, errcode := .success } :=
  congrArg Host.Outcome.next ((if_pos hl).trans (if_pos hc))

/-- A TBL_END after fewer or more than 256 entries (R123). -/
theorem exec_tblEnd_wrong (hl : s.tblLoading = true) (hc : ¬(s.count = 256 ∧ s.excess = false)) :
    exec .tblEnd s =
      .next { s with tblLoading := false, tblValid := false, errcode := .invalidConfiguration } :=
  congrArg Host.Outcome.next ((if_pos hl).trans (if_neg hc))

/-- A LOOKUP without a valid table (R181). -/
theorem exec_lookup_notConfigured (hv : s.tblValid = false) (b : Byte) :
    exec (.lookup b) s = .next { s with errcode := .notConfigured } :=
  congrArg Host.Outcome.next (if_neg (ne_true_of_eq_false hv))

/-- A HUMANIZE without a valid table (R181). -/
theorem exec_humanize_notConfigured (hv : s.tblValid = false) :
    exec .humanize s = .next { s with errcode := .notConfigured } :=
  congrArg Host.Outcome.next (if_neg (ne_true_of_eq_false hv))

end

/-- One more entry leaves TBL_VALID as it is (R122). -/
@[simp] theorem State.addEntry_tblValid (s : State) : s.addEntry.tblValid = s.tblValid := by
  obtain ⟨_, e⟩ | ⟨_, e⟩ := State.addEntry_cases s <;> rw [e]

/-- A table becomes valid only by a TBL_DEFAULT or a successful TBL_END (R120, R123, R124). -/
theorem tblValid_set_by {i : Instr} {s t : State} (hv : s.tblValid = false) (h : exec i s = .next t)
    (ht : t.tblValid = true) : i = .tblDefault ∨ (i = .tblEnd ∧ t.errcode = .success) := by
  obtain rfl := Host.Outcome.next.inj ((exec_eq_next i s).symm.trans h)
  cases i
  case tblDefault => exact .inl rfl
  case tblEnd =>
    refine .inr ⟨rfl, ?_⟩
    simp only [execState, exec, execTblEnd] at ht ⊢
    split_ifs at ht ⊢
    · rfl
    · cases ht
    · simp [hv] at ht
  case tblBegin => cases ht
  case tblWrite =>
    simp only [execState, exec, execTblWrite] at ht
    split at ht <;> simp [hv] at ht
  all_goals
    rw [execState_keeps_table rfl s] at ht
    exact absurd ht (ne_true_of_eq_false hv)

/-! ### An open load -/

/-- A load is open and idle, and the entries `es` have been offered in it: the first 256 stand in TBL in order, COUNT and
EXCESS say how many there were (R120, R121, R122). -/
structure LoadHolds (es : List Token) (s : State) : Prop where
  pend : s.pend = none
  loading : s.tblLoading = true
  count : s.count = min es.length 256
  excess : s.excess = true ↔ 256 < es.length
  tbl : ∀ (k : Nat) (h : k < 256) (h' : k < es.length), s.tbl[k] = es[k]

/-- COUNT = 256 with EXCESS = 0 says that exactly 256 entries were offered (R123). -/
theorem LoadHolds.exact_iff {es : List Token} {s : State} (h : LoadHolds es s) :
    (s.count = 256 ∧ s.excess = false) ↔ es.length = 256 := by
  rw [h.count, ← Bool.not_eq_true, h.excess]
  omega

/-- TBL_BEGIN opens a load in which nothing has been offered (R120). -/
theorem loadHolds_tblBegin {s : State} (hp : s.pend = none) : LoadHolds [] (execState .tblBegin s) :=
  ⟨hp, rfl, rfl, iff_of_false nofun nofun, nofun⟩

/-- Commands other than table commands leave an open load as it is (R128). -/
theorem LoadHolds.other_command {es : List Token} {s : State} (h : LoadHolds es s) {i : Instr}
    (hi : isTableCommand i = false) : LoadHolds es (execState i s) := by
  obtain ⟨hp, hl, hc, hx, ht⟩ := h
  obtain ⟨hpend, -⟩ := exec_keeps_environment (exec_eq_next i s)
  rw [hp, execState_keeps_table hi s] at hpend
  rw [execState_keeps_table hi s]
  exact ⟨hpend, hl, hc, hx, ht⟩

/-- A DATA write leaves an open load as it is, and an idle block takes it (R40, R122). -/
theorem LoadHolds.write_data {es : List Token} {s : State} (h : LoadHolds es s) (t : Token) :
    LoadHolds es (regWrite .data t s) ∧ (regWrite .data t s).data = t := by
  obtain ⟨hp, hl, hc, hx, ht⟩ := h
  have hw : regWrite .data t s = { s with data := t } := by
    simp only [regWrite, State.not_busy_of_pend hp, Bool.false_eq_true, if_false]
  rw [hw]
  exact ⟨⟨hp, hl, hc, hx, ht⟩, rfl⟩

/-- A TBL_WRITE offers one more entry: the next of TBL while there is room, else one in excess (R121, R122). -/
theorem LoadHolds.append_entry {es : List Token} {s : State} (h : LoadHolds es s) :
    ∃ u, exec .tblWrite s = .next u ∧ LoadHolds (es ++ [s.data]) u := by
  obtain ⟨hp, hl, hc, hx, ht⟩ := h
  have hlen : (es ++ [s.data]).length = es.length + 1 := List.length_append
  obtain hroom | hfull := Nat.lt_or_ge s.count 256
  · have hcount : s.count + 1 = min (es ++ [s.data]).length 256 := by omega
    have hexcess : s.excess = true ↔ 256 < (es ++ [s.data]).length := hx.trans (by omega)
    refine ⟨_, exec_tblWrite_room hl hroom, hp, hl, hcount, hexcess, fun k hk hk' => ?_⟩
    rw [Vector.getElem_set, List.getElem_append]
    split_ifs with heq hlt hlt
    · omega
    · exact (List.getElem_singleton _).symm
    · exact ht k hk hlt
    · omega
  · have hcount : s.count = min (es ++ [s.data]).length 256 := by omega
    have hexcess : true = true ↔ 256 < (es ++ [s.data]).length := iff_of_true rfl (by omega)
    refine ⟨_, exec_tblWrite_full hl hfull, hp, hl, hcount, hexcess, fun k hk hk' => ?_⟩
    have hlt : k < es.length := by omega
    rw [List.getElem_append_left hlt]
    exact ht k hk hlt

/-- The entries of a load are offered in order, whatever stands between them (R121, R128). -/
theorem LoadHolds.after_loadSteps {es : List Token} {s : State} {ops : List (Token ⊕ Instr)} (h : LoadHolds es s)
    (hops : ∀ i, .inr i ∈ ops → isTableCommand i = false) :
    ∃ t, loadSteps ops s = .next t ∧ LoadHolds (es ++ entriesOf ops) t := by
  induction ops generalizing es s with
  | nil => exact ⟨s, rfl, by rwa [entriesOf, List.filterMap_nil, List.append_nil]⟩
  | cons op ops ih =>
    have hops' : ∀ i, .inr i ∈ ops → isTableCommand i = false := fun i hi => hops i (List.mem_cons_of_mem _ hi)
    cases op with
    | inl t =>
      obtain ⟨hwrite, hdata⟩ := h.write_data t
      obtain ⟨u, hu, hload⟩ := hwrite.append_entry
      obtain ⟨v, hv, hend⟩ := ih hload hops'
      rw [hdata, List.append_assoc] at hend
      exact ⟨v, by rw [loadSteps, hu]; exact hv, hend⟩
    | inr i =>
      obtain ⟨v, hv, hend⟩ := ih (h.other_command (hops i List.mem_cons_self)) hops'
      exact ⟨v, by rw [loadSteps, exec_eq_next]; exact hv, hend⟩

/-! ### The statements -/

/-- Settles O38: TBL_BEGIN opens an empty load (`loadHolds_tblBegin`), the entries are offered in it
(`LoadHolds.after_loadSteps`), and TBL_END accepts it exactly with 256 of them (`LoadHolds.exact_iff`). -/
theorem tableLoadSucceedsExactlyWith256Entries : Obligations.TableLoadSucceedsExactlyWith256Entries := by
  unfold Obligations.TableLoadSucceedsExactlyWith256Entries
  intro ops s hp hops
  obtain ⟨u, hu, hload⟩ := (loadHolds_tblBegin hp).after_loadSteps hops
  rw [List.nil_append] at hload
  have hrun : loadTable ops s = exec .tblEnd u := by
    rw [loadTable, exec_eq_next, andThen_next, hu, andThen_next]
  rw [hrun]
  by_cases hlen : (entriesOf ops).length = 256
  · refine ⟨_, exec_tblEnd_exact hload.loading (hload.exact_iff.2 hlen), rfl, ?_⟩
    exact ⟨iff_of_true rfl hlen, iff_of_true rfl hlen, absurd hlen, hload.tbl⟩
  · refine ⟨_, exec_tblEnd_wrong hload.loading (mt hload.exact_iff.1 hlen), rfl, ?_⟩
    exact ⟨iff_of_false nofun hlen, iff_of_false nofun hlen, fun _ => rfl, hload.tbl⟩

/-- Settles O47, by `execState_withTableOf`. -/
theorem tableStateDoesNotAffectLoadingOrCompress : Obligations.TableStateDoesNotAffectLoadingOrCompress := by
  unfold Obligations.TableStateDoesNotAffectLoadingOrCompress
  intro i s u t hi h
  have hg : ignoresTable i = true := by obtain rfl | rfl | ⟨b, rfl⟩ | ⟨c, rfl⟩ := hi <;> rfl
  obtain rfl := Host.Outcome.next.inj ((exec_eq_next i s).symm.trans h)
  rw [exec_eq_next, execState_withTableOf s u hg]

/-- Settles O34: the first two parts by their meanings, the last by `tblValid_set_by`. -/
theorem tblBeginOpensALoad : Obligations.TblBeginOpensALoad := by
  unfold Obligations.TblBeginOpensALoad
  exact ⟨rfl, fun s => rfl, fun b s hv => ⟨exec_lookup_notConfigured hv b, exec_humanize_notConfigured hv⟩,
    fun i s t => tblValid_set_by⟩

/-- Settles O35, by the equation of TBL_WRITE in each case. -/
theorem tblWriteAppendsOneEntry : Obligations.TblWriteAppendsOneEntry := by
  unfold Obligations.TblWriteAppendsOneEntry
  refine ⟨rfl, fun s => ⟨exec_tblWrite_closed, fun hl hc => ?_, exec_tblWrite_full⟩⟩
  refine ⟨_, exec_tblWrite_room hl hc, rfl, fun k hk => ?_⟩
  exact (Vector.getElem_set hc hk).trans (if_congr eq_comm rfl rfl)

/-- Settles O36, by the equation of TBL_END in each case. -/
theorem tblEndChecksTheCount : Obligations.TblEndChecksTheCount := by
  unfold Obligations.TblEndChecksTheCount
  refine ⟨rfl, fun s => ⟨exec_tblEnd_closed, fun hl hc hx => exec_tblEnd_exact hl ⟨hc, hx⟩, fun hl hc => ?_⟩⟩
  refine exec_tblEnd_wrong hl fun ⟨hc', hx⟩ => ?_
  obtain hc | hx' := hc
  · exact hc hc'
  · simp [hx] at hx'

/-- Settles O37: the table read afterwards is the default one itself. -/
theorem tblDefaultLoadsTheDefaultWordlist : Obligations.TblDefaultLoadsTheDefaultWordlist := by
  unfold Obligations.TblDefaultLoadsTheDefaultWordlist
  exact ⟨rfl, fun s => ⟨_, rfl, rfl, fun _ _ => rfl, fun _ => rfl⟩⟩

end Sys2Proof.Machine

/-! PROOFS. The statements of the family 41_input.md. Before them, each said once: the values of hex digits and of pairs, what
PUSHB and PUSHHEX do in each of their cases, what COMPRESS and HUMANIZE can do, and what a run of PUSHHEX makes of a digest. -/

namespace Sys2Proof.Machine

/-! ### Hex digits and pairs -/

/-- A pair's byte as a number: the first digit is the high nibble (R145). -/
theorem toNat_pairByte (first second : BitVec 4) :
    (pairByte first second).toNat = 16 * first.toNat + second.toNat := by
  have h1 := first.isLt
  have h2 := second.isLt
  rw [pairByte, BitVec.toNat_add, BitVec.toNat_mul, BitVec.toNat_setWidth, BitVec.toNat_setWidth,
    show (16 : Byte).toNat = 16 from rfl]
  omega

/-- The value of a code in each of the three ranges of R144, as a number. -/
theorem map_toNat_hexval (c : Byte) : (hexval c).map BitVec.toNat =
    if 0x30 ≤ c.toNat ∧ c.toNat ≤ 0x39 then some (c.toNat - 0x30)
    else if 0x41 ≤ c.toNat ∧ c.toNat ≤ 0x46 then some (c.toNat - 0x37)
    else if 0x61 ≤ c.toNat ∧ c.toNat ≤ 0x66 then some (c.toNat - 0x57)
    else none := by
  have hfits {n : Nat} (hn : n < 16) : (some (BitVec.ofNat 4 n)).map BitVec.toNat = some n :=
    congrArg some (Nat.mod_eq_of_lt hn)
  unfold hexval
  split_ifs
  · exact hfits (by omega)
  · exact hfits (by omega)
  · exact hfits (by omega)
  · rfl

/-- Settles O19, by `map_toNat_hexval` and `toNat_pairByte`; the six letters are compared one by one. -/
theorem hexDigitsAndPairsHaveTheirValues : Obligations.HexDigitsAndPairsHaveTheirValues := by
  unfold Obligations.HexDigitsAndPairsHaveTheirValues
  exact ⟨map_toNat_hexval, by decide, toNat_pairByte⟩

/-! ### PUSHB and PUSHHEX, case by case -/

section

variable {s : State}

/-- `append` while there is room (R141). -/
theorem State.append_room (b : Byte) (hn : s.inCount < maxN) : s.append b =
    { s with inBuf := Cells.set s.inBuf s.inCount b, inCount := s.inCount + 1, errcode := .success } :=
  if_pos hn

/-- `append` into a full buffer (R141). -/
theorem State.append_full (b : Byte) (hn : maxN ≤ s.inCount) :
    s.append b = { s with inFault := .overflow, errcode := .inputOverflow } :=
  if_neg (Nat.not_lt.2 hn)

/-- A PUSHB into a malformed digest (R142). -/
theorem exec_pushb_badDigest (b : Byte) (hf : s.inFault = .badDigest) :
    exec (.pushb b) s = .next { s with errcode := .invalidDigest } :=
  congrArg Host.Outcome.next (if_pos hf)

/-- A PUSHB into an overflowed input (R142). -/
theorem exec_pushb_overflow (b : Byte) (hf : s.inFault = .overflow) :
    exec (.pushb b) s = .next { s with errcode := .inputOverflow } :=
  congrArg Host.Outcome.next ((if_neg (by simp [hf])).trans (if_pos hf))

/-- A PUSHB inside a hex pair (R142). -/
theorem exec_pushb_inPair (b : Byte) (hf : s.inFault = .none) (hp : s.hexPend = true) :
    exec (.pushb b) s = .next { s with inFault := .badDigest, errcode := .invalidDigest } := by
  simp only [exec, execPushb, hf, hp, reduceCtorEq, if_false, if_true]
  rfl

/-- A PUSHB into a good input is `append` (R142). -/
theorem exec_pushb_append (b : Byte) (hf : s.inFault = .none) (hp : s.hexPend = false) :
    exec (.pushb b) s = .next (s.append b) := by
  simp only [exec, execPushb, hf, hp, reduceCtorEq, Bool.false_eq_true, if_false]

/-- A PUSHHEX into a malformed digest (R143). -/
theorem exec_pushhex_badDigest (c : Byte) (hf : s.inFault = .badDigest) :
    exec (.pushhex c) s = .next { s with errcode := .invalidDigest } :=
  congrArg Host.Outcome.next (if_pos hf)

/-- A PUSHHEX into an overflowed input (R143). -/
theorem exec_pushhex_overflow (c : Byte) (hf : s.inFault = .overflow) :
    exec (.pushhex c) s = .next { s with errcode := .inputOverflow } :=
  congrArg Host.Outcome.next ((if_neg (by simp [hf])).trans (if_pos hf))

/-- A PUSHHEX of a code that is no hex digit (R143). -/
theorem exec_pushhex_nonHex {c : Byte} (hf : s.inFault = .none) (hc : hexval c = none) :
    exec (.pushhex c) s = .next { s with inFault := .badDigest, errcode := .invalidDigest } := by
  simp only [exec, execPushhex, hf, hc, reduceCtorEq, if_false]
  rfl

/-- A PUSHHEX of a pair's first digit (R143). -/
theorem exec_pushhex_first {c : Byte} {v : BitVec 4} (hf : s.inFault = .none) (hc : hexval c = some v)
    (hp : s.hexPend = false) :
    exec (.pushhex c) s = .next { s with nib := v, hexPend := true, errcode := .success } := by
  simp only [exec, execPushhex, hf, hc, State.pushNibble, hp, reduceCtorEq, Bool.false_eq_true, if_false]
  rfl

/-- A PUSHHEX of a pair's second digit ends the pair and is `append` of its byte (R143). -/
theorem exec_pushhex_second {c : Byte} {v : BitVec 4} (hf : s.inFault = .none) (hc : hexval c = some v)
    (hp : s.hexPend = true) :
    exec (.pushhex c) s = .next (State.append (pairByte s.nib v) { s with hexPend := false }) := by
  simp only [exec, execPushhex, hf, hc, State.pushNibble, hp, reduceCtorEq, if_false, if_true]

/-- A PUSHHEX of a pair's second digit while there is room (R143). -/
theorem exec_pushhex_second_room {c : Byte} {v : BitVec 4} (hf : s.inFault = .none) (hc : hexval c = some v)
    (hp : s.hexPend = true) (hn : s.inCount < maxN) :
    exec (.pushhex c) s =
      .next { s with hexPend := false, inBuf := Cells.set s.inBuf s.inCount (pairByte s.nib v),
                     inCount := s.inCount + 1, errcode := .success } :=
  (exec_pushhex_second hf hc hp).trans (congrArg _ (State.append_room (s := { s with hexPend := false }) _ hn))

/-- A PUSHHEX of a pair's second digit into a full buffer (R143). -/
theorem exec_pushhex_second_full {c : Byte} {v : BitVec 4} (hf : s.inFault = .none) (hc : hexval c = some v)
    (hp : s.hexPend = true) (hn : maxN ≤ s.inCount) :
    exec (.pushhex c) s = .next { s with hexPend := false, inFault := .overflow, errcode := .inputOverflow } :=
  (exec_pushhex_second hf hc hp).trans (congrArg _ (State.append_full (s := { s with hexPend := false }) _ hn))

end

/-- Settles O17, by the equation of PUSHB in each case; the last is `append` with room. -/
theorem pushbAppendsOneByteOrReportsItsFault : Obligations.PushbAppendsOneByteOrReportsItsFault := by
  unfold Obligations.PushbAppendsOneByteOrReportsItsFault
  refine fun b s => ⟨toNat_encode (.pushb b), exec_pushb_badDigest b, exec_pushb_overflow b, exec_pushb_inPair b,
    fun hf hp hn => ?full, fun hf hp hn => ?room⟩
  case full => rw [exec_pushb_append b hf hp, State.append_full b hn]
  case room =>
    rw [exec_pushb_append b hf hp, State.append_room b hn]
    exact ⟨_, rfl, rfl, Cells.get_set_self s.inBuf b, fun k => Cells.get_set_of_ne s.inBuf b⟩

/-- Settles O18, by the equation of PUSHHEX in each case; a second digit is `append` of `pairByte`. -/
theorem pushhexTakesOneDigitOrReportsItsFault : Obligations.PushhexTakesOneDigitOrReportsItsFault := by
  unfold Obligations.PushhexTakesOneDigitOrReportsItsFault
  refine fun c s => ⟨toNat_encode (.pushhex c), exec_pushhex_badDigest c, exec_pushhex_overflow c, exec_pushhex_nonHex,
    fun v => exec_pushhex_first, fun v => exec_pushhex_second_full, fun v hf hc hp hn => ?_⟩
  refine ⟨_, exec_pushhex_second_room hf hc hp hn, rfl, fun hwf => ?_, fun k => Cells.get_set_of_ne s.inBuf _⟩
  exact (congrArg BitVec.toNat (Cells.get_set_self s.inBuf _ hwf)).trans (toNat_pairByte s.nib v)

/-! ### COMPRESS and HUMANIZE -/

/-- Storing the same run of elements again changes none of them. -/
theorem Cells.get_setFrom_setFrom {w : Nat} (vs : List (BitVec w)) (c : Cells w) (k i : Nat) (hc : Cells.wf c = true) :
    Cells.get (Cells.setFrom (Cells.setFrom c k vs) k vs) i = Cells.get (Cells.setFrom c k vs) i := by
  by_cases hi : k ≤ i ∧ i < k + vs.length
  · obtain ⟨j, rfl⟩ := Nat.exists_eq_add_of_le hi.1
    have hj : j < vs.length := by omega
    rw [Cells.get_setFrom_inside vs _ k j (Cells.wf_setFrom vs c k hc) hj, Cells.get_setFrom_inside vs c k j hc hj]
  · exact Cells.get_setFrom_outside vs _ k i (by omega)

section

variable {s t : State}

/-- A failed check is an error, never a success (R213). -/
theorem inputError_ne_success {e : ErrCode} (he : inputError s = some e) : e ≠ .success := by
  rintro rfl
  unfold inputError at he
  split_ifs at he <;> cases he

/-- A COMPRESS that fails a check (R166). -/
theorem exec_compress_error {e : ErrCode} (he : inputError s = some e) :
    exec .compress s = .next { s with errcode := e } :=
  congrArg Host.Outcome.next (by rw [he]; rfl)

/-- A COMPRESS that passes its checks (R166). -/
theorem exec_compress_ready (he : inputError s = none) :
    exec .compress s = .next (State.done (s.storeChecksums .checksums s.checksums)) :=
  congrArg Host.Outcome.next (by rw [he])

/-- A HUMANIZE with a valid table that fails a check of COMPRESS (R183, R213). -/
theorem exec_humanize_error {e : ErrCode} (hv : s.tblValid = true) (he : inputError s = some e) :
    exec .humanize s = .next { s with errcode := e } :=
  congrArg Host.Outcome.next ((if_pos hv).trans (by rw [he]; rfl))

/-- A HUMANIZE that passes its checks (R183). -/
theorem exec_humanize_ready (hv : s.tblValid = true) (he : inputError s = none) :
    exec .humanize s = .next (State.done ((s.storeChecksums .words s.checksums).storeWords s.checksums)) :=
  congrArg Host.Outcome.next ((if_pos hv).trans (by rw [he]))

/-- The two things COMPRESS can do: report an error, or store the checksums (R166). -/
theorem exec_compress_cases (h : exec .compress s = .next t) :
    (∃ e, e ≠ .success ∧ t = { s with errcode := e }) ∨
    (inputError s = none ∧ t = State.done (s.storeChecksums .checksums s.checksums)) := by
  cases he : inputError s with
  | some e => exact .inl ⟨e, inputError_ne_success he, Host.Outcome.next.inj (h.symm.trans (exec_compress_error he))⟩
  | none => exact .inr ⟨rfl, Host.Outcome.next.inj (h.symm.trans (exec_compress_ready he))⟩

/-- The two things HUMANIZE can do: report an error, or store the checksums and their words (R183). -/
theorem exec_humanize_cases (h : exec .humanize s = .next t) :
    (∃ e, e ≠ .success ∧ t = { s with errcode := e }) ∨
    (s.tblValid = true ∧ inputError s = none ∧
      t = State.done ((s.storeChecksums .words s.checksums).storeWords s.checksums)) := by
  by_cases hv : s.tblValid = true
  · cases he : inputError s with
    | some e =>
      exact .inl ⟨e, inputError_ne_success he, Host.Outcome.next.inj (h.symm.trans (exec_humanize_error hv he))⟩
    | none => exact .inr ⟨hv, rfl, Host.Outcome.next.inj (h.symm.trans (exec_humanize_ready hv he))⟩
  · have hn := exec_humanize_notConfigured (Bool.eq_false_of_not_eq_true hv)
    exact .inl ⟨.notConfigured, nofun, Host.Outcome.next.inj (h.symm.trans hn)⟩

/-- COMPRESS and HUMANIZE do not consume the input (R151). -/
theorem compress_humanize_keep_input (h : exec .compress s = .next t ∨ exec .humanize s = .next t) :
    t.inCount = s.inCount ∧ t.inBuf = s.inBuf ∧ t.hexPend = s.hexPend ∧ t.inFault = s.inFault ∧
      t.target = s.target := by
  obtain h | h := h
  · obtain ⟨e, -, rfl⟩ | ⟨-, rfl⟩ := exec_compress_cases h <;> exact ⟨rfl, rfl, rfl, rfl, rfl⟩
  · obtain ⟨e, -, rfl⟩ | ⟨-, -, rfl⟩ := exec_humanize_cases h <;> exact ⟨rfl, rfl, rfl, rfl, rfl⟩

end

/-- Settles O28: the first part by `compress_humanize_keep_input`; a second run passes the same checks and stores the same
values again (`Cells.get_setFrom_setFrom`). -/
theorem inputIsKeptAndOutputsAreRepeatable : Obligations.InputIsKeptAndOutputsAreRepeatable := by
  unfold Obligations.InputIsKeptAndOutputsAreRepeatable
  refine ⟨fun s t => compress_humanize_keep_input, fun s t hck hwd ht => ⟨fun h => ?compress, fun h => ?humanize⟩⟩
  case compress =>
    obtain ⟨e, he, rfl⟩ | ⟨he, rfl⟩ := exec_compress_cases h
    · exact absurd ht he
    · exact ⟨_, exec_compress_ready he, rfl, rfl, fun i => Cells.get_setFrom_setFrom s.checksums s.ck 0 i hck⟩
  case humanize =>
    obtain ⟨e, he, rfl⟩ | ⟨hv, he, rfl⟩ := exec_humanize_cases h
    · exact absurd ht he
    · exact ⟨_, exec_humanize_ready hv he, rfl, rfl, fun i =>
        ⟨Cells.get_setFrom_setFrom s.checksums s.ck 0 i hck,
          Cells.get_setFrom_setFrom (s.checksums.map (word s)) s.wd 0 i hwd⟩⟩

/-! ### What keeps a fault -/

section

variable {s t : State}

/-- A PUSHB that leaves the input without a fault found it without one (R142). -/
theorem pushb_unfaulted {b : Byte} (h : exec (.pushb b) s = .next t) (ht : t.inFault = .none) :
    s.inFault = .none := by
  cases hf : s.inFault with
  | none => rfl
  | badDigest =>
    obtain rfl := Host.Outcome.next.inj ((exec_pushb_badDigest b hf).symm.trans h)
    exact hf.symm.trans ht
  | overflow =>
    obtain rfl := Host.Outcome.next.inj ((exec_pushb_overflow b hf).symm.trans h)
    exact hf.symm.trans ht

/-- A PUSHHEX that leaves the input without a fault found it without one, took a hex digit, and began or ended a pair
(R143). -/
theorem pushhex_unfaulted {c : Byte} (h : exec (.pushhex c) s = .next t) (ht : t.inFault = .none) :
    s.inFault = .none ∧ hexval c ≠ none ∧ t.hexPend = !s.hexPend := by
  cases hf : s.inFault with
  | badDigest =>
    obtain rfl := Host.Outcome.next.inj ((exec_pushhex_badDigest c hf).symm.trans h)
    cases hf.symm.trans ht
  | overflow =>
    obtain rfl := Host.Outcome.next.inj ((exec_pushhex_overflow c hf).symm.trans h)
    cases hf.symm.trans ht
  | none =>
    cases hc : hexval c with
    | none =>
      obtain rfl := Host.Outcome.next.inj ((exec_pushhex_nonHex hf hc).symm.trans h)
      cases ht
    | some v =>
      refine ⟨rfl, nofun, ?_⟩
      cases hp : s.hexPend with
      | false =>
        obtain rfl := Host.Outcome.next.inj ((exec_pushhex_first hf hc hp).symm.trans h)
        rfl
      | true =>
        obtain hn | hn := Nat.lt_or_ge s.inCount maxN
        · obtain rfl := Host.Outcome.next.inj ((exec_pushhex_second_room hf hc hp hn).symm.trans h)
          rfl
        · obtain rfl := Host.Outcome.next.inj ((exec_pushhex_second_full hf hc hp hn).symm.trans h)
          cases ht

/-- One more entry leaves IN_FAULT as it is (R122). -/
@[simp] theorem State.addEntry_inFault (s : State) : s.addEntry.inFault = s.inFault := by
  obtain ⟨_, e⟩ | ⟨_, e⟩ := State.addEntry_cases s <;> rw [e]

/-- Every command but CLRIN that leaves the input without a fault found it without one (R33, R140). -/
theorem inFault_none_before {i : Instr} (hi : i ≠ .clrin) (h : exec i s = .next t) (ht : t.inFault = .none) :
    s.inFault = .none := by
  cases i
  case clrin => exact absurd rfl hi
  case pushb b => exact pushb_unfaulted h ht
  case pushhex c => exact (pushhex_unfaulted h ht).1
  case compress =>
    obtain ⟨-, -, -, hf, -⟩ := compress_humanize_keep_input (.inl h)
    exact hf.symm.trans ht
  case humanize =>
    obtain ⟨-, -, -, hf, -⟩ := compress_humanize_keep_input (.inr h)
    exact hf.symm.trans ht
  all_goals obtain rfl := Host.Outcome.next.inj h
  case lookup b => split at ht <;> exact ht
  case tblWrite => split at ht <;> simpa using ht
  case tblEnd => split_ifs at ht <;> exact ht
  all_goals exact ht

end

/-- Settles O16: the first two parts by CLRIN's meaning, the last by `inFault_none_before`. -/
theorem clrinStartsANewInput : Obligations.ClrinStartsANewInput := by
  unfold Obligations.ClrinStartsANewInput
  refine ⟨rfl, fun s => rfl, fun i s t h hs ht => ?_⟩
  by_contra hi
  exact hs (inFault_none_before hi h ht)

/-! ### Digests -/

/-- A run of PUSHHEX that leaves the input without a fault took hex digits only, and left a half pair exactly when there
was an odd number of them (R143, R147). -/
theorem pushhex_run_unfaulted {cs : List Byte} {s t : State} (h : performAll (cs.map .pushhex) s = .next t)
    (ht : t.inFault = .none) : s.inFault = .none ∧ (∀ c ∈ cs, hexval c ≠ none) ∧
      t.hexPend = (s.hexPend ^^ decide (cs.length % 2 = 1)) := by
  induction cs generalizing s with
  | nil =>
    obtain rfl := Host.Outcome.next.inj h
    exact ⟨ht, nofun, (Bool.xor_false _).symm⟩
  | cons c cs ih =>
    rw [List.map_cons, performAll, exec_eq_next, andThen_next] at h
    obtain ⟨hu, hcs, hpend⟩ := ih h
    obtain ⟨hs, hc, hpend'⟩ := pushhex_unfaulted (exec_eq_next _ s) hu
    have hparity : decide ((c :: cs).length % 2 = 1) = !decide (cs.length % 2 = 1) := by
      rw [List.length_cons, ← decide_not, decide_eq_decide]
      omega
    refine ⟨hs, List.forall_mem_cons.2 ⟨hc, hcs⟩, ?_⟩
    rw [hpend, hpend', hparity, Bool.not_xor, Bool.xor_not]

/-- Loading a digest is a run of PUSHHEX after CLRIN (R150). -/
theorem loadDigest_eq (cs : List Byte) (s : State) :
    loadDigest cs s = performAll (cs.map .pushhex) (execState .clrin s) := rfl

/-- CLRIN leaves no half pair (R140). -/
@[simp] theorem clrin_hexPend (s : State) : (execState .clrin s).hexPend = false := rfl

/-- CLRIN leaves no input (R140). -/
@[simp] theorem clrin_inCount (s : State) : (execState .clrin s).inCount = 0 := rfl

/-- A digest of odd length or with a non-hex character never passes the checks of COMPRESS (R147). -/
theorem inputError_of_malformed {cs : List Byte} {s t : State}
    (hbad : cs.length % 2 = 1 ∨ ∃ c ∈ cs, hexval c = none) (h : loadDigest cs s = .next t) :
    ∃ e, inputError t = some e := by
  refine Option.ne_none_iff_exists'.1 fun he => ?_
  obtain ⟨hf, hp, -⟩ := (inputError_eq_none t).1 he
  rw [loadDigest_eq] at h
  obtain ⟨-, hhex, hpend⟩ := pushhex_run_unfaulted h hf
  obtain hodd | ⟨c, hc, hnone⟩ := hbad
  · simp [hp, hodd] at hpend
  · exact hhex c hc hnone

/-- Settles O21: a check fails after a malformed digest (`inputError_of_malformed`), before any write. -/
theorem malformedDigestNeverYieldsChecksums : Obligations.MalformedDigestNeverYieldsChecksums := by
  unfold Obligations.MalformedDigestNeverYieldsChecksums
  intro cs s t hbad h
  obtain ⟨e, he⟩ := inputError_of_malformed hbad h
  refine ⟨⟨e, inputError_ne_success he, exec_compress_error he⟩, ?_⟩
  by_cases hv : t.tblValid = true
  · exact ⟨e, inputError_ne_success he, exec_humanize_error hv he⟩
  · exact ⟨.notConfigured, nofun, exec_humanize_notConfigured (Bool.eq_false_of_not_eq_true hv)⟩

/-- The bytes of a digest: one for each whole pair of its characters (R150). -/
def digestBytes : List Byte → List Byte
  | [] => []
  | [_] => []
  | c :: d :: cs => pairByte ((hexval c).getD 0) ((hexval d).getD 0) :: digestBytes cs

/-- Byte i of a digest is made of its characters 2i and 2i + 1, the first being the high nibble (R145, R150). -/
theorem getElem?_digestBytes {cs : List Byte} {i : Nat} {c d : Byte} {a b : BitVec 4} (hc : cs[2 * i]? = some c)
    (hd : cs[2 * i + 1]? = some d) (ha : hexval c = some a) (hb : hexval d = some b) :
    (digestBytes cs)[i]? = some (pairByte a b) := by
  induction cs using digestBytes.induct generalizing i with
  | case1 => cases hc
  | case2 => cases hd
  | case3 c' d' cs ih =>
    cases i with
    | zero =>
      obtain rfl := Option.some.inj hc
      obtain rfl := Option.some.inj hd
      rw [digestBytes, ha, hb]
      rfl
    | succ i => exact ih hc hd

/-- Two PUSHHEX that make a pair store its byte at IN[N] (R143, R145). -/
theorem performAll_pushhex_pair {c d : Byte} {a b : BitVec 4} {s : State} (hf : s.inFault = .none)
    (hp : s.hexPend = false) (ha : hexval c = some a) (hb : hexval d = some b) (hn : s.inCount < maxN)
    (is : List Instr) :
    performAll (.pushhex c :: .pushhex d :: is) s =
      performAll is { s with nib := a, hexPend := false, inBuf := Cells.set s.inBuf s.inCount (pairByte a b),
                             inCount := s.inCount + 1, errcode := .success } := by
  have hsecond := exec_pushhex_second_room (s := { s with nib := a, hexPend := true, errcode := .success }) hf hb rfl hn
  rw [performAll, exec_pushhex_first hf ha hp, andThen_next, performAll, hsecond, andThen_next]

/-- A run of PUSHHEX of hex digits succeeds while its bytes have room, and stores them from IN[N] on (R143, R150). -/
theorem pushhex_run_loads {cs : List Byte} (hhex : ∀ c ∈ cs, hexval c ≠ none) {s : State} (hf : s.inFault = .none)
    (hp : s.hexPend = false) (he : s.errcode = .success) (hroom : s.inCount + cs.length / 2 ≤ maxN) :
    ∃ t, performAll (cs.map .pushhex) s = .next t ∧ t.errcode = .success ∧ t.inFault = .none ∧
      t.inCount = s.inCount + cs.length / 2 ∧ t.inBuf = Cells.setFrom s.inBuf s.inCount (digestBytes cs) := by
  induction cs using digestBytes.induct generalizing s with
  | case1 => exact ⟨s, rfl, he, hf, rfl, rfl⟩
  | case2 c =>
    obtain ⟨a, ha⟩ := Option.ne_none_iff_exists'.1 (hhex c List.mem_cons_self)
    rw [List.length_singleton]
    exact ⟨_, congrArg (andThen · _) (exec_pushhex_first hf ha hp), rfl, hf, rfl, rfl⟩
  | case3 c d cs ih =>
    obtain ⟨hc, hd, hcs⟩ := by simpa only [List.forall_mem_cons] using hhex
    obtain ⟨a, ha⟩ := Option.ne_none_iff_exists'.1 hc
    obtain ⟨b, hb⟩ := Option.ne_none_iff_exists'.1 hd
    have hlen : s.inCount + (c :: d :: cs).length / 2 = s.inCount + 1 + cs.length / 2 := by
      rw [List.length_cons, List.length_cons]
      omega
    rw [hlen] at hroom ⊢
    rw [List.map_cons, List.map_cons, performAll_pushhex_pair hf hp ha hb (by omega), digestBytes, ha, hb]
    exact ih hcs hf rfl rfl hroom

/-- What loading hex digits that fit makes of any state: no error, no fault, a half pair exactly after an odd number of
digits, and the bytes of the whole pairs from IN[0] on (R150). -/
theorem loadDigest_hex {cs : List Byte} (hhex : ∀ c ∈ cs, hexval c ≠ none) (hroom : cs.length / 2 ≤ maxN)
    (s : State) : ∃ t, loadDigest cs s = .next t ∧ t.errcode = .success ∧ t.inFault = .none ∧
      t.hexPend = decide (cs.length % 2 = 1) ∧ t.inCount = cs.length / 2 ∧
      t.inBuf = Cells.setFrom s.inBuf 0 (digestBytes cs) := by
  obtain ⟨t, ht, he, hf, hn, hbuf⟩ :=
    pushhex_run_loads hhex (s := execState .clrin s) rfl rfl rfl (by rwa [clrin_inCount, Nat.zero_add])
  obtain ⟨-, -, hpend⟩ := pushhex_run_unfaulted ht hf
  exact ⟨t, (loadDigest_eq cs s).trans ht, he, hf, hpend.trans (Bool.false_xor _), hn.trans (Nat.zero_add _), hbuf⟩

/-- Settles O20, by `loadDigest_hex` for the digest and for each of its initial parts. -/
theorem hexDigestLoadsItsBytes : Obligations.HexDigestLoadsItsBytes := by
  unfold Obligations.HexDigestLoadsItsBytes
  intro cs m s hlen hm hhex
  refine ⟨?whole, fun k hk => ?starts⟩
  case whole =>
    obtain ⟨t, ht, -, hf, hpend, hn, hbuf⟩ := loadDigest_hex hhex (by omega) s
    refine ⟨t, ht, by omega, hpend.trans (decide_eq_false (by omega)), hf, fun hwf i h a b ha hb => ?_⟩
    obtain ⟨hi, hbyte⟩ := List.getElem?_eq_some_iff.1
      (getElem?_digestBytes (List.getElem?_eq_getElem (by omega)) (List.getElem?_eq_getElem h) ha hb)
    have hget := Cells.get_setFrom_inside (digestBytes cs) s.inBuf 0 i hwf hi
    rw [Nat.zero_add, ← hbuf, hbyte] at hget
    rw [hget, toNat_pairByte]
  case starts =>
    have hlen' : (cs.take k).length = k := List.length_take_of_le hk
    have hhex' : ∀ c ∈ cs.take k, hexval c ≠ none := fun c hc => hhex c (List.mem_of_mem_take hc)
    obtain ⟨u, hu, he, -⟩ := loadDigest_hex hhex' (by omega) s
    exact ⟨u, hu, he⟩

end Sys2Proof.Machine

/-! PROOFS. The statements of the family 42_compress.md. Before them, each said once: the bounds and the length of a segment,
the segments in order as a run of indices, the fold as an XOR of bytes, what the XOR of bytes does on appended lists, and the
error that each check of COMPRESS gives. -/

namespace Sys2Proof.Machine

/-! ### The bounds and the length of a segment -/

section

variable {n t i : Nat}

/-- s ≥ 1 (R161). -/
theorem segSize_pos (ht : 1 ≤ t) (htn : t ≤ n) : 0 < segSize n t := Nat.div_pos htn ht

/-- A segment that is not the last ends where the next one begins (R162). -/
theorem segHi_eq_segLo_succ (hi : i + 1 < t) : segHi n t i = segLo n t (i + 1) := if_pos hi

/-- The last segment ends at N (R162). -/
theorem segHi_last (hi : i + 1 = t) : segHi n t i = n := if_neg (Nat.not_lt.2 hi.ge)

/-- A segment's length as its bounds give it: s, or all that is left of the input for the last one (R162). -/
theorem segHi_sub_segLo (n t i : Nat) :
    segHi n t i - segLo n t i = if i + 1 < t then segSize n t else n - segLo n t i := by
  by_cases hi : i + 1 < t
  · rw [segHi_eq_segLo_succ hi, if_pos hi, segLo, segLo, Nat.succ_mul, Nat.add_sub_cancel_left]
  · rw [segHi, if_neg hi, if_neg hi]

/-- What is left of the input for the last segment: s and the remainder (R162). -/
theorem sub_segLo_last (hi : i + 1 = t) : n - segLo n t i = n / t + n % t := by
  have hdiv : n = i * (n / t) + (n / t + n % t) := by
    rw [← Nat.add_assoc, ← Nat.add_one_mul, hi, Nat.div_add_mod]
  exact Nat.sub_eq_of_eq_add' hdiv

/-- A segment's length (R162). -/
theorem length_segIndices (hi : i < t) :
    (segIndices n t i).length = if i + 1 < t then n / t else n / t + n % t := by
  rw [segIndices, List.length_range', segHi_sub_segLo]
  by_cases hlast : i + 1 < t
  · rw [if_pos hlast, if_pos hlast, segSize]
  · rw [if_neg hlast, if_neg hlast, sub_segLo_last (by omega)]

/-- Every segment is non-empty (R167). -/
theorem length_segIndices_pos (htn : t ≤ n) (hi : i < t) : 1 ≤ (segIndices n t i).length := by
  have hs : 1 ≤ n / t := segSize_pos (by omega) htn
  rw [length_segIndices hi]
  split <;> omega

/-- The bounds of a segment are in order (R167). -/
theorem segLo_lt_segHi (htn : t ≤ n) (hi : i < t) : segLo n t i < segHi n t i := by
  have hlen := length_segIndices_pos htn hi
  rw [segIndices, List.length_range'] at hlen
  exact Nat.lt_of_sub_pos hlen

/-- The fold's first read lies within the input (R167). -/
theorem segLo_lt (htn : t ≤ n) (hi : i < t) : segLo n t i < n :=
  calc segLo n t i < t * segSize n t := Nat.mul_lt_mul_of_pos_right hi (segSize_pos (by omega) htn)
    _ ≤ n := Nat.mul_div_le n t

end

/-- Settles O22, by `length_segIndices`, `length_segIndices_pos` and `segLo_lt`. -/
theorem segmentsAreNonEmptyAndLastTakesRemainder : Obligations.SegmentsAreNonEmptyAndLastTakesRemainder := by
  unfold Obligations.SegmentsAreNonEmptyAndLastTakesRemainder
  intro n t i _ htn hi
  refine ⟨length_segIndices hi, length_segIndices_pos htn hi, fun hmod => ?_, segLo_lt htn hi⟩
  simp [length_segIndices hi, hmod]

/-! ### The segments in order -/

/-- The first k + 1 segments in order are the indices below the end of segment k (R171). -/
theorem flatMap_segIndices_upTo {n t k : Nat} (htn : t ≤ n) (hk : k < t) :
    (List.range (k + 1)).flatMap (segIndices n t) = List.range (segHi n t k) := by
  induction k with
  | zero => simp [segIndices, segLo, List.range_eq_range']
  | succ k ih =>
    have hlt := segLo_lt_segHi htn hk
    calc (List.range (k + 1 + 1)).flatMap (segIndices n t)
        = List.range (segHi n t k) ++ segIndices n t (k + 1) := by
          rw [List.range_succ, List.flatMap_append, ih (by omega), List.flatMap_singleton]
      _ = List.range' 0 (segLo n t (k + 1)) ++ List.range' (0 + segLo n t (k + 1))
            (segHi n t (k + 1) - segLo n t (k + 1)) := by
          rw [segHi_eq_segLo_succ hk, List.range_eq_range', segIndices, Nat.zero_add]
      _ = List.range (segHi n t (k + 1)) := by
          rw [List.range'_append_1, Nat.add_sub_cancel' hlt.le, List.range_eq_range']

/-- The segments in order are the indices below N (R171). -/
theorem flatMap_segIndices {n t : Nat} (ht : 1 ≤ t) (htn : t ≤ n) :
    (List.range t).flatMap (segIndices n t) = List.range n := by
  obtain ⟨k, rfl⟩ := Nat.exists_eq_add_of_le' ht
  rw [flatMap_segIndices_upTo htn (Nat.lt_succ_self k), segHi_last rfl]

/-- Settles O23: the concatenation is `flatMap_segIndices`, and it lists no index twice, so no two segments share one. -/
theorem segmentsPartitionTheInput : Obligations.SegmentsPartitionTheInput := by
  unfold Obligations.SegmentsPartitionTheInput
  intro n t ht htn
  refine ⟨flatMap_segIndices ht htn, fun i j hi hj hij k hki hkj => ?_⟩
  have hnodup : ((List.range t).flatMap (segIndices n t)).Nodup := flatMap_segIndices ht htn ▸ List.nodup_range
  obtain ⟨-, hdisj⟩ := List.nodup_flatMap.1 hnodup
  have : Std.Symm (Function.onFun List.Disjoint (segIndices n t)) := ⟨fun _ _ h => h.symm⟩
  exact hdisj.forall (List.mem_range.2 hi) (List.mem_range.2 hj) hij hki hkj

/-! ### The fold and the XOR of bytes -/

/-- The fold's further steps are a left fold over the bytes they read (R163). -/
theorem foldFrom_eq_foldl (rd : Nat → Byte) (acc : Byte) (j len : Nat) :
    foldFrom rd acc j len = ((List.range' j len).map rd).foldl (· ^^^ ·) acc := by
  induction len generalizing acc j with
  | zero => rfl
  | succ len ih => exact ih (acc ^^^ rd j) (j + 1)

/-- XOR from 0 on starts at the first byte (R163, R170). -/
theorem xorAll_cons_eq_foldl (b : Byte) (bs : List Byte) : xorAll (b :: bs) = bs.foldl (· ^^^ ·) b :=
  congrArg (bs.foldl (· ^^^ ·)) BitVec.zero_xor

/-- The fold of a non-empty range is the XOR of its bytes (R163, R170). -/
theorem segFold_eq_xorAll (rd : Nat → Byte) {lo hi : Nat} (h : lo < hi) :
    segFold rd lo hi = xorAll ((List.range' lo (hi - lo)).map rd) := by
  rw [segFold, foldFrom_eq_foldl, show hi - lo = hi - (lo + 1) + 1 by omega, List.range'_succ, List.map_cons,
    xorAll_cons_eq_foldl]

/-- The XOR of bytes does not depend on their order (R170). -/
theorem xorAll_perm {as bs : List Byte} (h : as.Perm bs) : xorAll as = xorAll bs := h.foldl_op_eq

@[simp] theorem xorAll_singleton (b : Byte) : xorAll [b] = b := xorAll_cons_eq_foldl b []

/-- The XOR of two lists of bytes, one after the other (R170). -/
theorem xorAll_append (as bs : List Byte) : xorAll (as ++ bs) = xorAll as ^^^ xorAll bs :=
  calc xorAll (as ++ bs) = bs.foldl (· ^^^ ·) (xorAll as) := List.foldl_append
    _ = bs.foldl (· ^^^ ·) (xorAll as ^^^ 0#8) := by rw [BitVec.xor_zero]
    _ = xorAll as ^^^ xorAll bs := List.foldl_assoc

/-- The XOR of the XORs of some lists is the XOR of all their bytes (R170, R172). -/
theorem xorAll_map_xorAll {α : Type} (f : α → List Byte) (xs : List α) :
    xorAll (xs.map fun x => xorAll (f x)) = xorAll (xs.flatMap f) := by
  induction xs with
  | nil => rfl
  | cons x xs ih =>
    rw [List.map_cons, ← List.singleton_append, xorAll_append, xorAll_singleton, ih, List.flatMap_cons, xorAll_append]

/-- Settles O24, by `segFold_eq_xorAll` and `xorAll_perm`. -/
theorem foldIsTheXorInAnyOrder : Obligations.FoldIsTheXorInAnyOrder := by
  unfold Obligations.FoldIsTheXorInAnyOrder
  intro rd lo hi bs h hperm
  rw [segFold_eq_xorAll rd h, xorAll_perm hperm]

/-! ### Compress as a whole -/

/-- Compress gives, for each segment, the XOR of its bytes (R164, R170). -/
theorem compress_eq_map_xorAll (rd : Nat → Byte) {n t : Nat} (htn : t ≤ n) :
    compress rd n t = (List.range t).map fun i => xorAll ((segIndices n t i).map rd) :=
  List.map_congr_left fun _ hi => segFold_eq_xorAll rd (segLo_lt_segHi htn (List.mem_range.1 hi))

/-- The one segment of T = 1 is all of the input (R169). -/
theorem segIndices_one (n : Nat) : segIndices n 1 0 = List.range n := by
  rw [segIndices, segHi_last rfl, segLo, Nat.zero_mul, Nat.sub_zero, List.range_eq_range']

/-- With T = N every segment is one byte (R168). -/
theorem segIndices_self {n i : Nat} (hi : i < n) : segIndices n n i = [i] := by
  have hs : n / n = 1 := Nat.div_self (Nat.zero_lt_of_lt hi)
  have hlen : segHi n n i - segLo n n i = 1 := by simpa [segIndices, hs] using length_segIndices (n := n) hi
  rw [segIndices, hlen, segLo, segSize, hs, Nat.mul_one, List.range'_one]

/-- Settles O25, by `compress_eq_map_xorAll` on one-byte segments and on the one segment. -/
theorem compressIdentityAndSingleOutput : Obligations.CompressIdentityAndSingleOutput := by
  unfold Obligations.CompressIdentityAndSingleOutput
  intro rd n hn
  refine ⟨Nat.div_self hn, Nat.mod_self n, ?identity, segIndices_one n, ?single⟩
  case identity =>
    rw [compress_eq_map_xorAll rd le_rfl]
    refine List.map_congr_left fun i hi => ?_
    rw [segIndices_self (List.mem_range.1 hi), List.map_singleton, xorAll_singleton]
  case single =>
    rw [compress_eq_map_xorAll rd hn, List.range_one, List.map_singleton, segIndices_one]

/-- Settles O26: the checksums are the XORs of the segments, and the segments in order are the input. -/
theorem checksumsKeepTheParityOfTheInput : Obligations.ChecksumsKeepTheParityOfTheInput := by
  unfold Obligations.ChecksumsKeepTheParityOfTheInput
  intro rd n t ht htn
  calc xorAll (compress rd n t)
      = xorAll ((List.range t).flatMap fun i => (segIndices n t i).map rd) := by
        rw [compress_eq_map_xorAll rd htn, xorAll_map_xorAll]
    _ = xorAll ((List.range n).map rd) := by rw [← List.map_flatMap, flatMap_segIndices ht htn]

/-! ### The command -/

section

variable {s : State}

/-- The first check: a malformed digest or half a pair (R166). -/
theorem inputError_invalidDigest (h : s.inFault = .badDigest ∨ s.hexPend = true) :
    inputError s = some .invalidDigest :=
  if_pos (by simpa [digestBad] using h)

/-- The second check: an overflowed input (R166). -/
theorem inputError_inputOverflow (hf : s.inFault = .overflow) (hp : s.hexPend = false) :
    inputError s = some .inputOverflow := by
  simp [inputError, digestBad, digestOverflow, hf, hp]

/-- With a good input, the checks that are left are those of T (R166). -/
theorem inputError_of_goodInput (hf : s.inFault = .none) (hp : s.hexPend = false) :
    inputError s = if s.target = 0 then some .invalidTarget
      else if s.inCount < s.target.toNat then some .insufficientInput else none := by
  simp [inputError, digestBad, digestOverflow, hf, hp]

/-- The third check: T = 0 (R166). -/
theorem inputError_invalidTarget (hf : s.inFault = .none) (hp : s.hexPend = false) (ht : s.target = 0) :
    inputError s = some .invalidTarget := by
  rw [inputError_of_goodInput hf hp, if_pos ht]

/-- The fourth check: T > N (R166). -/
theorem inputError_insufficientInput (hf : s.inFault = .none) (hp : s.hexPend = false) (ht : s.target ≠ 0)
    (hn : s.inCount < s.target.toNat) : inputError s = some .insufficientInput := by
  rw [inputError_of_goodInput hf hp, if_neg ht, if_pos hn]

/-- All checks pass when 1 ≤ T ≤ N and the input is good (R165). -/
theorem inputError_ready (hf : s.inFault = .none) (hp : s.hexPend = false) (ht : s.target ≠ 0)
    (hn : s.target.toNat ≤ s.inCount) : inputError s = none := by
  rw [inputError_of_goodInput hf hp, if_neg ht, if_neg (Nat.not_lt.2 hn)]

end

/-- There are T checksums (R160). -/
@[simp] theorem State.length_checksums (s : State) : s.checksums.length = s.target.toNat :=
  length_compress _ _ _

/-- Checksum i, written out: the bytes of segment i XORed left to right, the first being the accumulator's start (R161 to
R164). -/
theorem State.getElem_checksums (s : State) (i : Nat) (h : i < s.checksums.length) :
    s.checksums[i] = ((List.range' (i * (s.inCount / s.target.toNat) + 1)
      ((if i + 1 < s.target.toNat then s.inCount / s.target.toNat
        else s.inCount - i * (s.inCount / s.target.toNat)) - 1)).map (Cells.get s.inBuf)).foldl (· ^^^ ·)
      (Cells.get s.inBuf (i * (s.inCount / s.target.toNat))) := by
  have hfold : s.checksums[i] = segFold (Cells.get s.inBuf) (segLo s.inCount s.target.toNat i)
      (segHi s.inCount s.target.toNat i) := getElem_compress _ _ _ _ h
  rw [hfold, segFold, foldFrom_eq_foldl, Nat.sub_add_eq, segHi_sub_segLo, segLo, segSize]

/-- CK after the checksums are stored: element i below T is checksum i (R166, R183). -/
theorem State.get_ck_storeChecksums (k : OutKind) {s : State} (hwf : Cells.wf s.ck = true) {i : Nat}
    (h : i < s.checksums.length) : Cells.get (s.storeChecksums k s.checksums).ck i = s.checksums[i] := by
  have hget := Cells.get_setFrom_inside s.checksums s.ck 0 i hwf h
  rwa [Nat.zero_add] at hget

/-- CK after the checksums are stored: from T on it is as it was (R166, R183). -/
theorem State.get_ck_storeChecksums_outside (k : OutKind) {s : State} {i : Nat} (h : s.target.toNat ≤ i) :
    Cells.get (s.storeChecksums k s.checksums).ck i = Cells.get s.ck i :=
  Cells.get_setFrom_outside s.checksums s.ck 0 i (.inr (by rwa [Nat.zero_add, State.length_checksums]))

/-- OUT_WORD reads 0 unless OUT_KIND = 2 (R44). -/
theorem regValue_outWord_of_not_words {s : State} (h : s.outKind ≠ .words) : regValue .outWord s = 0 :=
  if_neg fun ⟨hk, _⟩ => h hk

/-- Settles O27: each failing check by its `inputError` lemma, and success by what `storeChecksums` leaves in CK. -/
theorem compressReducesTheInputToItsChecksums : Obligations.CompressReducesTheInputToItsChecksums := by
  unfold Obligations.CompressReducesTheInputToItsChecksums
  refine ⟨rfl, fun s => ⟨?digest, ?overflow, ?target, ?count, ?success⟩⟩
  case digest => exact fun h => exec_compress_error (inputError_invalidDigest h)
  case overflow => exact fun hf hp => exec_compress_error (inputError_inputOverflow hf hp)
  case target => exact fun hf hp ht => exec_compress_error (inputError_invalidTarget hf hp ht)
  case count => exact fun hf hp ht hn => exec_compress_error (inputError_insufficientInput hf hp ht hn)
  case success =>
    intro hf hp ht hn
    refine ⟨_, exec_compress_ready (inputError_ready hf hp ht hn), rfl, regValue_outWord_of_not_words nofun,
      fun hwf i hi => ?_, fun i => State.get_ck_storeChecksums_outside .checksums⟩
    have hi' : i < s.checksums.length := hi.trans_eq s.length_checksums.symm
    exact (State.get_ck_storeChecksums .checksums hwf hi').trans (s.getElem_checksums i hi')

end Sys2Proof.Machine

/-! PROOFS. The statements of the family 43_humanize.md. Before them, each said once: what storing the words leaves in
WD, what a successful HUMANIZE is and what OUT_WORD reads after it, that loading a digest changes the input only, and that a
digest longer than the buffer overflows it. -/

namespace Sys2Proof.Machine

/-! ### The outputs of HUMANIZE -/

section

variable {s t : State}

/-- WD after the words are stored: element i is the token of byte i (R183). -/
theorem State.get_wd_storeWords {cs : List Byte} (hwf : Cells.wf s.wd = true) {i : Nat} (h : i < cs.length) :
    Cells.get (s.storeWords cs).wd i = word s cs[i] := by
  have hget := Cells.get_setFrom_inside (cs.map (word s)) s.wd 0 i hwf (by rwa [List.length_map])
  rwa [Nat.zero_add, List.getElem_map] at hget

/-- WD after the words are stored: from their number on it is as it was (R183). -/
theorem State.get_wd_storeWords_outside {cs : List Byte} {i : Nat} (h : cs.length ≤ i) :
    Cells.get (s.storeWords cs).wd i = Cells.get s.wd i :=
  Cells.get_setFrom_outside _ s.wd 0 i (.inr (by rwa [Nat.zero_add, List.length_map]))

/-- The tokens are those of the table (R180). -/
theorem word_of_tbl (h : t.tbl = s.tbl) : word t = word s := by
  funext b
  simp only [word, h]

/-- Only a HUMANIZE that passes its checks succeeds, and it stores the checksums and their words (R183). -/
theorem exec_humanize_success (h : exec .humanize s = .next t) (ht : t.errcode = .success) :
    t = State.done ((s.storeChecksums .words s.checksums).storeWords s.checksums) := by
  obtain ⟨e, he, rfl⟩ | ⟨-, -, rfl⟩ := exec_humanize_cases h
  · exact absurd ht he
  · rfl

/-- After a successful HUMANIZE, CK holds the checksums (R183). -/
theorem humanize_get_ck (hck : Cells.wf s.ck = true) (h : exec .humanize s = .next t) (ht : t.errcode = .success)
    {i : Nat} (hi : i < s.checksums.length) : Cells.get t.ck i = s.checksums[i] := by
  obtain rfl := exec_humanize_success h ht
  exact State.get_ck_storeChecksums .words hck hi

/-- After a successful HUMANIZE, every word is the token of its checksum (R183, R185). -/
theorem humanize_get_wd (hck : Cells.wf s.ck = true) (hwd : Cells.wf s.wd = true) (h : exec .humanize s = .next t)
    (ht : t.errcode = .success) {i : Nat} (hi : i < s.target.toNat) :
    Cells.get t.wd i = word s (Cells.get t.ck i) := by
  have hi' : i < s.checksums.length := hi.trans_eq s.length_checksums.symm
  rw [humanize_get_ck hck h ht hi']
  obtain rfl := exec_humanize_success h ht
  exact State.get_wd_storeWords (s := s.storeChecksums .words s.checksums) hwd hi'

/-- After a successful HUMANIZE, CK[0..T) are the checksums and WD[0..T) their tokens (R183). -/
theorem humanize_outputs (hck : Cells.wf s.ck = true) (hwd : Cells.wf s.wd = true) (h : exec .humanize s = .next t)
    (ht : t.errcode = .success) : (List.range s.target.toNat).map (Cells.get t.ck) = s.checksums ∧
      (List.range s.target.toNat).map (Cells.get t.wd) = s.checksums.map (word s) := by
  have hcks : (List.range s.target.toNat).map (Cells.get t.ck) = s.checksums := by
    refine List.ext_getElem (by simp) fun i _ hi => ?_
    rw [List.getElem_map, List.getElem_range, humanize_get_ck hck h ht hi]
  refine ⟨hcks, ?_⟩
  rw [← hcks, List.map_map]
  exact List.map_congr_left fun i hi => humanize_get_wd hck hwd h ht (List.mem_range.1 hi)

/-- While OUT_KIND = 2, OUT_WORD reads WD below OUT_COUNT, and 0 from there on (R44). -/
theorem regValue_outWord_of_words (h : s.outKind = .words) : regValue .outWord s =
    if s.outIndex.toNat < s.outCount.toNat then Cells.get s.wd s.outIndex.toNat else 0 := by
  simp only [regValue, outWordWord, h, true_and]

end

/-- Settles O30: each failing check by its `inputError` lemma, and success by what `storeChecksums` leaves in CK and
`storeWords` in WD. -/
theorem humanizeMapsTheChecksumsToTheirTokens : Obligations.HumanizeMapsTheChecksumsToTheirTokens := by
  unfold Obligations.HumanizeMapsTheChecksumsToTheirTokens
  refine ⟨rfl, fun _ _ => rfl, fun s =>
    ⟨exec_humanize_notConfigured, ?digest, ?overflow, ?target, ?count, ?success⟩⟩
  case digest => exact fun hv h => exec_humanize_error hv (inputError_invalidDigest h)
  case overflow => exact fun hv hf hp => exec_humanize_error hv (inputError_inputOverflow hf hp)
  case target => exact fun hv hf hp ht => exec_humanize_error hv (inputError_invalidTarget hf hp ht)
  case count => exact fun hv hf hp ht hn => exec_humanize_error hv (inputError_insufficientInput hf hp ht hn)
  case success =>
    intro hv hf hp ht hn
    have hexec := exec_humanize_ready hv (inputError_ready hf hp ht hn)
    refine ⟨_, hexec, rfl, fun hck hwd i hi => ?inside, fun i hi => ?outside⟩
    case inside =>
      have hi' : i < s.checksums.length := hi.trans_eq s.length_checksums.symm
      have hc := (humanize_get_ck hck hexec rfl hi').trans (s.getElem_checksums i hi')
      exact ⟨hc, (humanize_get_wd hck hwd hexec rfl hi).trans (congrArg (word s) hc)⟩
    case outside =>
      have hi' : s.checksums.length ≤ i := s.length_checksums.trans_le hi
      exact ⟨State.get_ck_storeChecksums_outside .words hi, State.get_wd_storeWords_outside hi'⟩

/-- Settles O31, by `humanize_get_ck` and `humanize_get_wd`; OUT_WORD reads WD by `regValue_outWord_of_words`. -/
theorem humanizeGivesExactlyTargetWords : Obligations.HumanizeGivesExactlyTargetWords := by
  unfold Obligations.HumanizeGivesExactlyTargetWords
  intro s t hck hwd h ht
  have hword {i : Nat} (hi : i < s.target.toNat) : Cells.get t.wd i = word s (Cells.get t.ck i) :=
    humanize_get_wd hck hwd h ht hi
  have hchecksum {i : Nat} (hi : i < s.target.toNat) : s.checksums[i]? = some (Cells.get t.ck i) := by
    have hi' : i < s.checksums.length := hi.trans_eq s.length_checksums.symm
    rw [humanize_get_ck hck h ht hi', List.getElem?_eq_getElem hi']
  obtain rfl := exec_humanize_success h ht
  refine ⟨rfl, rfl, fun i hi => ⟨hword hi, hchecksum hi⟩, fun k => ?_⟩
  rw [regValue_outWord_of_words rfl]
  exact ite_congr rfl (fun hk => hword hk) fun _ => rfl

/-- Settles O33: the words are the tokens of the checksums (`humanize_get_wd`), and distinct bytes have distinct
tokens. -/
theorem distinctTableMakesHumanizeInjective : Obligations.DistinctTableMakesHumanizeInjective := by
  unfold Obligations.DistinctTableMakesHumanizeInjective
  intro s s' t t' hdistinct htbl htarget hck hwd hck' hwd' h h' ht ht'
  have hinj : Function.Injective (word s) := hdistinct
  refine forall₂_congr fun i hi => ?_
  rw [humanize_get_wd hck hwd h ht hi, humanize_get_wd hck' hwd' h' ht' (by rwa [htarget]), word_of_tbl htbl]
  exact hinj.eq_iff

/-! ### Loading a digest -/

/-- `s` with the input, its status and the error code as in `u`: what PUSHHEX may write (R143). -/
def State.withInputOf (s u : State) : State :=
  { s with inBuf := u.inBuf, inCount := u.inCount, nib := u.nib, hexPend := u.hexPend, inFault := u.inFault,
           errcode := u.errcode }

/-- `append` writes the input only (R141). -/
theorem State.append_frame (b : Byte) (s : State) : s.append b = s.withInputOf (s.append b) := by
  obtain ⟨-, e⟩ | ⟨-, e⟩ := State.append_cases b s <;> rw [e] <;> rfl

/-- PUSHHEX writes the input only (R143). -/
theorem execState_pushhex_frame (c : Byte) (s : State) :
    execState (.pushhex c) s = s.withInputOf (execState (.pushhex c) s) := by
  simp only [execState, exec, execPushhex]
  split_ifs
  · rfl
  · rfl
  · split
    · rfl
    · next v _ =>
      obtain ⟨-, e⟩ | ⟨-, e⟩ := State.pushNibble_cases v s <;> rw [e]
      · exact State.append_frame _ { s with hexPend := false }
      · rfl

/-- A run of PUSHHEX writes the input only (R143). -/
theorem pushhex_run_frame {cs : List Byte} {s t : State} (h : performAll (cs.map .pushhex) s = .next t) :
    t = s.withInputOf t := by
  induction cs generalizing s with
  | nil =>
    obtain rfl := Host.Outcome.next.inj h
    rfl
  | cons c cs ih =>
    rw [List.map_cons, performAll, exec_eq_next, andThen_next] at h
    have hframe := ih h
    rw [execState_pushhex_frame] at hframe
    exact hframe

/-- Loading a digest writes the input only (R140, R143). -/
theorem loadDigest_frame {cs : List Byte} {s t : State} (h : loadDigest cs s = .next t) : t = s.withInputOf t := by
  rw [loadDigest_eq] at h
  exact pushhex_run_frame (s := execState .clrin s) h

/-- A run of PUSHHEX into an overflowed input leaves it overflowed, and HEX_PEND as it was (R143). -/
theorem pushhex_run_overflowed (cs : List Byte) {s : State} (hf : s.inFault = .overflow) :
    ∃ t, performAll (cs.map .pushhex) s = .next t ∧ t.inFault = .overflow ∧ t.hexPend = s.hexPend := by
  induction cs generalizing s with
  | nil => exact ⟨s, rfl, hf, rfl⟩
  | cons c cs ih =>
    rw [List.map_cons, performAll, exec_pushhex_overflow c hf, andThen_next]
    exact ih hf

/-- A run of PUSHHEX of hex digits with more whole bytes than there is room for overflows the input (R141, R143). -/
theorem pushhex_run_overflows {cs : List Byte} (hhex : ∀ c ∈ cs, hexval c ≠ none) {s : State}
    (hf : s.inFault = .none) (hp : s.hexPend = false) (hn : s.inCount ≤ maxN)
    (hroom : maxN < s.inCount + cs.length / 2) :
    ∃ t, performAll (cs.map .pushhex) s = .next t ∧ t.inFault = .overflow ∧ t.hexPend = false := by
  induction cs using digestBytes.induct generalizing s with
  | case1 => exact absurd hroom (Nat.not_lt.2 hn)
  | case2 c =>
    rw [List.length_singleton] at hroom
    exact absurd hroom (Nat.not_lt.2 hn)
  | case3 c d cs ih =>
    obtain ⟨hc, hd, hcs⟩ := by simpa only [List.forall_mem_cons] using hhex
    obtain ⟨a, ha⟩ := Option.ne_none_iff_exists'.1 hc
    obtain ⟨b, hb⟩ := Option.ne_none_iff_exists'.1 hd
    rw [List.map_cons, List.map_cons]
    obtain hlt | hfull := Nat.lt_or_ge s.inCount maxN
    · rw [performAll_pushhex_pair hf hp ha hb hlt]
      have hroom' : maxN < s.inCount + 1 + cs.length / 2 := by
        rw [List.length_cons, List.length_cons] at hroom
        omega
      exact ih hcs hf rfl hlt hroom'
    · have hsecond :=
        exec_pushhex_second_full (s := { s with nib := a, hexPend := true, errcode := .success }) hf hb rfl hfull
      rw [performAll, exec_pushhex_first hf ha hp, andThen_next, performAll, hsecond, andThen_next]
      exact pushhex_run_overflowed cs rfl

/-- Loading hex digits with more whole bytes than MAX_N overflows the input (R147). -/
theorem loadDigest_overflow {cs : List Byte} (hhex : ∀ c ∈ cs, hexval c ≠ none) (hroom : maxN < cs.length / 2)
    (s : State) : ∃ t, loadDigest cs s = .next t ∧ t.inFault = .overflow ∧ t.hexPend = false := by
  rw [loadDigest_eq]
  exact pushhex_run_overflows hhex rfl rfl (Nat.zero_le _) (by rwa [clrin_inCount, Nat.zero_add])

/-! ### The source's vector -/

/-- A run of elements written from 0 on reads back as it was written. -/
theorem Cells.map_get_setFrom {w : Nat} (vs : List (BitVec w)) {c : Cells w} (hc : Cells.wf c = true) :
    (List.range vs.length).map (Cells.get (Cells.setFrom c 0 vs)) = vs := by
  refine List.ext_getElem (by rw [List.length_map, List.length_range]) fun i _ hi => ?_
  rw [List.getElem_map, List.getElem_range]
  simpa only [Nat.zero_add] using Cells.get_setFrom_inside vs c 0 i hc hi

/-- With T = N the checksums are the input itself (R168). -/
theorem State.checksums_of_target_eq_inCount {s : State} (hpos : 1 ≤ s.inCount) (h : s.target.toNat = s.inCount) :
    s.checksums = (List.range s.inCount).map (Cells.get s.inBuf) := by
  obtain ⟨-, -, hid, -⟩ := compressIdentityAndSingleOutput (Cells.get s.inBuf) s.inCount hpos
  rw [State.checksums, h, hid]

/-- With T = N a HUMANIZE of a good input gives the input itself and its tokens (R168, R183). -/
theorem humanize_of_target_eq_inCount {s : State} (hv : s.tblValid = true) (hf : s.inFault = .none)
    (hp : s.hexPend = false) (hpos : 1 ≤ s.inCount) (h : s.target.toNat = s.inCount) (hck : Cells.wf s.ck = true)
    (hwd : Cells.wf s.wd = true) : ∃ u, exec .humanize s = .next u ∧ u.errcode = .success ∧
      (List.range s.inCount).map (Cells.get u.ck) = (List.range s.inCount).map (Cells.get s.inBuf) ∧
      (List.range s.inCount).map (Cells.get u.wd) = ((List.range s.inCount).map (Cells.get s.inBuf)).map (word s) := by
  have ht : 1 ≤ s.target.toNat := hpos.trans_eq h.symm
  have hexec := exec_humanize_ready hv ((inputError_eq_none s).2 ⟨hf, hp, ht, h.le⟩)
  have hout := humanize_outputs hck hwd hexec rfl
  rw [h] at hout
  rw [← s.checksums_of_target_eq_inCount hpos h]
  exact ⟨_, hexec, rfl, hout⟩

/-- The character codes of the source's digest "1A2B3C4D" (R186). -/
def sourceDigest : List Byte := [0x31, 0x41, 0x32, 0x42, 0x33, 0x43, 0x34, 0x44]

/-- The source's digest is hex digits (R144, R186). -/
theorem sourceDigest_hex : ∀ c ∈ sourceDigest, hexval c ≠ none := by decide

/-- The four bytes of the source's digest (R145, R186). -/
theorem digestBytes_sourceDigest : digestBytes sourceDigest = [0x1A, 0x2B, 0x3C, 0x4D] := by decide

/-- Settles O32: with room the digest loads its bytes (`loadDigest_hex`), and since T = N they are their own checksums
(`humanize_of_target_eq_inCount`), the table being as before the load (`loadDigest_frame`); without, it overflows
(`loadDigest_overflow`). -/
theorem sourceDigestSelectsItsFourTokens : Obligations.SourceDigestSelectsItsFourTokens := by
  unfold Obligations.SourceDigestSelectsItsFourTokens
  intro s hv htarget hin hck hwd
  obtain hfew | hroom := Nat.lt_or_ge maxN 4
  · obtain ⟨t, hload, hf, hp⟩ := loadDigest_overflow sourceDigest_hex hfew s
    have hv' : t.tblValid = true := (congrArg State.tblValid (loadDigest_frame hload)).trans hv
    exact ⟨t, _, hload, exec_humanize_error hv' (inputError_inputOverflow hf hp),
      fun h => absurd h (Nat.not_le.2 hfew), fun _ => rfl⟩
  · obtain ⟨t, hload, -, hf, hp, hn, hbuf⟩ := loadDigest_hex sourceDigest_hex hroom s
    have hframe := loadDigest_frame hload
    have hv' : t.tblValid = true := (congrArg State.tblValid hframe).trans hv
    have htarget' : t.target = 4 := (congrArg State.target hframe).trans htarget
    have hck' : Cells.wf t.ck = true := (congrArg (Cells.wf ·.ck) hframe).trans hck
    have hwd' : Cells.wf t.wd = true := (congrArg (Cells.wf ·.wd) hframe).trans hwd
    have htbl : t.tbl = s.tbl := (congrArg State.tbl hframe :)
    have hn' : t.inCount = 4 := hn
    have hinput : (List.range 4).map (Cells.get t.inBuf) = [0x1A, 0x2B, 0x3C, 0x4D] := by
      rw [hbuf, digestBytes_sourceDigest]
      exact Cells.map_get_setFrom _ hin
    obtain ⟨u, hexec, hu, hcks, hwds⟩ := humanize_of_target_eq_inCount hv' hf hp (by rw [hn']; decide)
      (by rw [htarget', hn']; rfl) hck' hwd'
    rw [hn', hinput] at hcks hwds
    rw [word_of_tbl htbl] at hwds
    exact ⟨t, u, hload, hexec, fun _ => ⟨hu, hinput, hcks, hwds⟩, fun h => absurd h (Nat.not_lt.2 hroom)⟩

/-! ### LOOKUP -/

/-- A LOOKUP with a valid table (R182). -/
theorem exec_lookup_valid {s : State} (hv : s.tblValid = true) (b : Byte) :
    exec (.lookup b) s = .next { s with lkResult := word s b, errcode := .success } :=
  congrArg Host.Outcome.next (if_pos hv)

/-- Settles O29, by the equation of LOOKUP in each case. -/
theorem lookupReturnsTheIndexedToken : Obligations.LookupReturnsTheIndexedToken := by
  unfold Obligations.LookupReturnsTheIndexedToken
  exact fun b s =>
    ⟨toNat_encode (.lookup b), fun hv => exec_lookup_notConfigured hv b, fun hv => exec_lookup_valid hv b⟩

end Sys2Proof.Machine

/-! PROOFS. The statements of the family 44_control.md. Before them: what NOP and CLRERR answer, and that PEND is empty while
BUSY = 0. -/

namespace Sys2Proof.Machine

/-- NOP clears ERRCODE and leaves every other field, OVERRUN included (R200). -/
theorem exec_nop (s : State) : exec .nop s = .next { s with errcode := .success } := rfl

/-- CLRERR clears OVERRUN and ERRCODE and leaves every other field, IN_FAULT and the table included (R201). -/
theorem exec_clrerr (s : State) : exec .clrerr s = .next { s with overrun := false, errcode := .success } := rfl

theorem State.pend_of_not_busy {s : State} (hb : s.busy = false) : s.pend = none :=
  Option.not_isSome_iff_eq_none.1 (ne_true_of_eq_false hb)

/-- Settles O15: the next states by `exec_nop` and `exec_clrerr`, and the two writes to CMD as any word's: accepted by
`cmdWriteIsAcceptedOrDropped`, dropped by `regWrite_busy`. -/
theorem nopAndClrerrClearTheErrorStatus : Obligations.NopAndClrerrClearTheErrorStatus := by
  unfold Obligations.NopAndClrerrClearTheErrorStatus
  refine ⟨rfl, rfl, fun s => ⟨exec_nop s, exec_clrerr s, fun hb => ?idle, fun hb => ?busy⟩⟩
  case idle =>
    obtain ⟨haccepted, -⟩ := cmdWriteIsAcceptedOrDropped s (encode .nop)
    exact (haccepted (State.pend_of_not_busy hb)).2
  case busy => exact regWrite_busy (encode .clrerr) hb rfl

end Sys2Proof.Machine

/-! PROOFS. The statements of the family 60_exceptions.md. Before them, each said once: the ERRCODE each command leaves, the
states a failing command can leave, and that a command which changed only ERRCODE does the same again. -/

namespace Sys2Proof.Machine

/-! ### The codes -/

/-- Settles O39: the numbers are the table's, read off the definition code by code. -/
theorem errorCodesHaveTheirNumbers : Obligations.ErrorCodesHaveTheirNumbers := by
  unfold Obligations.ErrorCodesHaveTheirNumbers
  refine ⟨rfl, rfl, rfl, rfl, rfl, rfl, rfl, rfl, rfl, fun e => ?_⟩
  cases e <;> decide

/-- Settles O40: each of the five ends in `done`. -/
theorem someCommandsNeverFail : Obligations.SomeCommandsNeverFail := by
  unfold Obligations.SomeCommandsNeverFail
  rintro i s (rfl | rfl | rfl | rfl | rfl) <;> exact ⟨_, rfl, rfl⟩

/-! ### The one state a command answers -/

/-- What is proved of a command's answer holds of the state it answered. -/
theorem eq_of_exec {i : Instr} {s t u : State} (h : exec i s = .next t) (hu : exec i s = .next u) : t = u :=
  Host.Outcome.next.inj (h.symm.trans hu)

/-- The ERRCODE of the state a command answered, read off any proved answer. -/
theorem errcode_of_exec {i : Instr} {s t u : State} (h : exec i s = .next t) (hu : exec i s = .next u) :
    t.errcode = u.errcode :=
  congrArg State.errcode (eq_of_exec h hu)

/-! ### An input that already holds a fault -/

/-- The error a push into an input with this fault raises; an input without one raises none (R142, R143). -/
def InFault.error : InFault → ErrCode
  | .none => .success
  | .badDigest => .invalidDigest
  | .overflow => .inputOverflow

section

variable {s t : State}

/-- A PUSHB into an input with a fault raises that fault's error and changes nothing else (R142). -/
theorem exec_pushb_faulted (b : Byte) {f : InFault} (hs : s.inFault = f) (hf : f ≠ .none) :
    exec (.pushb b) s = .next { s with errcode := f.error } := by
  cases f with
  | none => exact absurd rfl hf
  | badDigest => exact exec_pushb_badDigest b hs
  | overflow => exact exec_pushb_overflow b hs

/-- A PUSHHEX into an input with a fault raises that fault's error and changes nothing else (R143). -/
theorem exec_pushhex_faulted (c : Byte) {f : InFault} (hs : s.inFault = f) (hf : f ≠ .none) :
    exec (.pushhex c) s = .next { s with errcode := f.error } := by
  cases f with
  | none => exact absurd rfl hf
  | badDigest => exact exec_pushhex_badDigest c hs
  | overflow => exact exec_pushhex_overflow c hs

/-! ### What a failing command leaves -/

/-- The three ways PUSHB fails: on the fault the input holds, inside a hex pair, into a full buffer (R142). -/
theorem exec_pushb_failed {b : Byte} (h : exec (.pushb b) s = .next t) (ht : t.errcode ≠ .success) :
    (s.inFault ≠ .none ∧ t = { s with errcode := s.inFault.error }) ∨
    (s.inFault = .none ∧ t = { s with inFault := .badDigest, errcode := .invalidDigest }) ∨
    (s.inFault = .none ∧ t = { s with inFault := .overflow, errcode := .inputOverflow }) := by
  by_cases hf : s.inFault = .none
  · right
    obtain hp | hp := Bool.eq_false_or_eq_true s.hexPend
    · exact .inl ⟨hf, eq_of_exec h (exec_pushb_inPair b hf hp)⟩
    · obtain rfl := eq_of_exec h (exec_pushb_append b hf hp)
      obtain ⟨-, e⟩ | ⟨-, e⟩ := State.append_cases b s
      · exact absurd (congrArg State.errcode e) ht
      · exact .inr ⟨hf, e⟩
  · exact .inl ⟨hf, eq_of_exec h (exec_pushb_faulted b rfl hf)⟩

/-- The three ways PUSHHEX fails: on the fault the input holds, at a code that is no hex digit, and at a pair's second digit
into a full buffer (R143). -/
theorem exec_pushhex_failed {c : Byte} (h : exec (.pushhex c) s = .next t) (ht : t.errcode ≠ .success) :
    (s.inFault ≠ .none ∧ t = { s with errcode := s.inFault.error }) ∨
    (s.inFault = .none ∧ t = { s with inFault := .badDigest, errcode := .invalidDigest }) ∨
    (s.inFault = .none ∧ s.hexPend = true ∧ maxN ≤ s.inCount ∧
      t = { s with hexPend := false, inFault := .overflow, errcode := .inputOverflow }) := by
  by_cases hf : s.inFault = .none
  · right
    cases hc : hexval c with
    | none => exact .inl ⟨hf, eq_of_exec h (exec_pushhex_nonHex hf hc)⟩
    | some v =>
      obtain hp | hp := Bool.eq_false_or_eq_true s.hexPend
      · obtain hn | hn := Nat.lt_or_ge s.inCount maxN
        · exact absurd (errcode_of_exec h (exec_pushhex_second_room hf hc hp hn)) ht
        · exact .inr ⟨hf, hp, hn, eq_of_exec h (exec_pushhex_second_full hf hc hp hn)⟩
      · exact absurd (errcode_of_exec h (exec_pushhex_first hf hc hp)) ht
  · exact .inl ⟨hf, eq_of_exec h (exec_pushhex_faulted c rfl hf)⟩

/-- The two ways TBL_END fails: with no load open, and with the wrong number of entries (R123). -/
theorem exec_tblEnd_failed (h : exec .tblEnd s = .next t) (ht : t.errcode ≠ .success) :
    (s.tblLoading = false ∧ t = { s with errcode := .tableState }) ∨
    t = { s with tblLoading := false, tblValid := false, errcode := .invalidConfiguration } := by
  obtain hl | hl := Bool.eq_false_or_eq_true s.tblLoading
  · by_cases hc : s.count = 256 ∧ s.excess = false
    · exact absurd (errcode_of_exec h (exec_tblEnd_exact hl hc)) ht
    · exact .inr (eq_of_exec h (exec_tblEnd_wrong hl hc))
  · exact .inl ⟨hl, eq_of_exec h (exec_tblEnd_closed hl)⟩

/-- A failing TBL_WRITE changes ERRCODE only (R122). -/
theorem exec_tblWrite_failed (h : exec .tblWrite s = .next t) (ht : t.errcode ≠ .success) :
    t = { s with errcode := t.errcode } := by
  obtain hl | hl := Bool.eq_false_or_eq_true s.tblLoading
  · obtain hc | hc := Nat.lt_or_ge s.count 256
    · exact absurd (errcode_of_exec h (exec_tblWrite_room hl hc)) ht
    · exact absurd (errcode_of_exec h (exec_tblWrite_full hl hc)) ht
  · obtain rfl := eq_of_exec h (exec_tblWrite_closed hl)
    rfl

/-- A failing LOOKUP changes ERRCODE only (R182). -/
theorem exec_lookup_failed {b : Byte} (h : exec (.lookup b) s = .next t) (ht : t.errcode ≠ .success) :
    t = { s with errcode := t.errcode } := by
  obtain hv | hv := Bool.eq_false_or_eq_true s.tblValid
  · exact absurd (errcode_of_exec h (exec_lookup_valid hv b)) ht
  · obtain rfl := eq_of_exec h (exec_lookup_notConfigured hv b)
    rfl

/-- After a failing push the input holds the fault whose error was raised (R142, R143). -/
theorem inFault_of_push_failed {i : Instr} (hi : (∃ b, i = .pushb b) ∨ ∃ c, i = .pushhex c) (h : exec i s = .next t)
    (ht : t.errcode ≠ .success) : t.inFault ≠ .none ∧ t.errcode = t.inFault.error := by
  obtain ⟨b, rfl⟩ | ⟨c, rfl⟩ := hi
  · obtain ⟨hf, rfl⟩ | ⟨-, rfl⟩ | ⟨-, rfl⟩ := exec_pushb_failed h ht
    exacts [⟨hf, rfl⟩, ⟨nofun, rfl⟩, ⟨nofun, rfl⟩]
  · obtain ⟨hf, rfl⟩ | ⟨-, rfl⟩ | ⟨-, -, -, rfl⟩ := exec_pushhex_failed h ht
    exacts [⟨hf, rfl⟩, ⟨nofun, rfl⟩, ⟨nofun, rfl⟩]

/-- A word that does not decode writes ERRCODE and nothing else (R202). -/
theorem perform_of_decode_error {w : Word} {e : DecodeReject} (hd : decode w = .error e) (s : State) :
    perform w s = .next { s with errcode := .illegalCommand } :=
  perform_of_illegal ((exists_decode_error_iff w).1 ⟨e, hd⟩) s

end

/-- Settles O42, by the ways each command can fail; the five commands of R212 cannot. -/
theorem failingCommandsChangeOnlyTheirFaultMarks : Obligations.FailingCommandsChangeOnlyTheirFaultMarks := by
  unfold Obligations.FailingCommandsChangeOnlyTheirFaultMarks
  refine ⟨fun w e s hd => perform_of_decode_error hd s, fun i s t h ht => ?_⟩
  cases i
  case pushb b =>
    obtain ⟨hf, rfl⟩ | ⟨hf, rfl⟩ | ⟨hf, rfl⟩ := exec_pushb_failed h ht
    · exact ⟨rfl, hf, fun _ => rfl⟩
    · exact ⟨rfl, nofun, fun hne => absurd hf hne⟩
    · exact ⟨rfl, nofun, fun hne => absurd hf hne⟩
  case pushhex c =>
    obtain ⟨hf, rfl⟩ | ⟨hf, rfl⟩ | ⟨hf, hp, hn, rfl⟩ := exec_pushhex_failed h ht
    · exact ⟨rfl, hf, fun _ => rfl, fun h0 => absurd h0 hf, fun hne => absurd rfl hne⟩
    · exact ⟨rfl, nofun, fun hne => absurd hf hne, nofun, fun hne => absurd rfl hne⟩
    · exact ⟨rfl, nofun, fun hne => absurd hf hne, fun _ _ => ⟨hp, rfl⟩, fun _ => ⟨hp, hf, rfl, hn⟩⟩
  case tblEnd =>
    obtain ⟨-, rfl⟩ | rfl := exec_tblEnd_failed h ht
    · exact .inl ⟨rfl, rfl⟩
    · exact .inr ⟨rfl, rfl⟩
  case compress =>
    obtain ⟨e, -, rfl⟩ | ⟨-, rfl⟩ := exec_compress_cases h
    · rfl
    · exact absurd rfl ht
  case humanize =>
    obtain ⟨e, -, rfl⟩ | ⟨-, -, rfl⟩ := exec_humanize_cases h
    · rfl
    · exact absurd rfl ht
  case lookup b => exact exec_lookup_failed h ht
  case tblWrite => exact exec_tblWrite_failed h ht
  case nop | clrin | tblBegin | tblDefault | clrerr =>
    obtain rfl := Host.Outcome.next.inj h
    exact absurd rfl ht

/-! ### The failed command again -/

/-- A failed command that changed only ERRCODE does the same again: it reads no ERRCODE (R55, R218). -/
theorem exec_again_of_errcode_only {i : Instr} {s t : State} (h : exec i s = .next t) (ht : t.errcode ≠ .success)
    (hframe : t = { s with errcode := t.errcode }) : exec i t = .next t := by
  have hi : i ≠ .clrerr := by
    rintro rfl
    obtain rfl := Host.Outcome.next.inj h
    exact ht rfl
  have hexec : execState i s = t := eq_of_exec (exec_eq_next i s) h
  have hstatus : t = s.withStatus t.errcode s.overrun := hframe
  have hoverrun : t.overrun = s.overrun := by rw [hframe]
  calc exec i t = .next (execState i (s.withStatus t.errcode s.overrun)) := by rw [← hstatus, exec_eq_next]
    _ = .next (t.withOverrun s.overrun) := by rw [execState_withStatus _ _ _ hi, hexec]
    _ = .next t := by rw [← hoverrun]; rfl

/-- Settles O43: a failed push meets its own fault again, TBL_END finds no load open, and every other failure changed only
ERRCODE (`exec_again_of_errcode_only`). -/
theorem repeatingAFailedCommandFailsAlike : Obligations.RepeatingAFailedCommandFailsAlike := by
  unfold Obligations.RepeatingAFailedCommandFailsAlike
  refine ⟨fun i s t h ht => ?command, fun w e s t hd h => ?illegal⟩
  case illegal =>
    obtain rfl := Host.Outcome.next.inj (h.symm.trans (perform_of_decode_error hd s))
    exact ⟨rfl, perform_of_decode_error hd _⟩
  case command =>
    have hchanged := failingCommandsChangeOnlyTheirFaultMarks.2 i s t h ht
    cases i
    case pushb b =>
      obtain ⟨hf, he⟩ := inFault_of_push_failed (.inl ⟨b, rfl⟩) h ht
      exact ⟨fun _ => by rw [exec_pushb_faulted b rfl hf, ← he], nofun⟩
    case pushhex c =>
      obtain ⟨hf, he⟩ := inFault_of_push_failed (.inr ⟨c, rfl⟩) h ht
      exact ⟨fun _ => by rw [exec_pushhex_faulted c rfl hf, ← he], nofun⟩
    case tblEnd =>
      obtain ⟨hl, rfl⟩ | rfl := exec_tblEnd_failed h ht
      · exact ⟨fun _ => exec_tblEnd_closed hl, fun _ hne => absurd rfl hne⟩
      · exact ⟨nofun, fun _ _ => ⟨rfl, exec_tblEnd_closed rfl⟩⟩
    all_goals exact ⟨fun _ => exec_again_of_errcode_only h ht hchanged, nofun⟩

/-! ### The first applicable check -/

/-- The checks of COMPRESS by the fields they read, in the order of R213. -/
theorem inputError_getD_success (s : State) : (inputError s).getD .success =
    if s.inFault = .badDigest ∨ s.hexPend = true then .invalidDigest
    else if s.inFault = .overflow then .inputOverflow
    else if s.target.toNat = 0 then .invalidTarget
    else if s.inCount < s.target.toNat then .insufficientInput
    else .success := by
  have ht : s.target = 0 ↔ s.target.toNat = 0 := BitVec.toNat_inj.symm
  simp only [inputError, digestBad, digestOverflow, Bool.or_eq_true, decide_eq_true_eq, ht]
  split_ifs <;> rfl

section

variable {s t : State}

/-- The ERRCODE of COMPRESS is its first failing check (R213). -/
theorem errcode_compress (h : exec .compress s = .next t) : t.errcode = (inputError s).getD .success := by
  cases he : inputError s with
  | some e => exact errcode_of_exec h (exec_compress_error he)
  | none => exact errcode_of_exec h (exec_compress_ready he)

/-- The ERRCODE of HUMANIZE: the table comes first, then the checks of COMPRESS (R213). -/
theorem errcode_humanize (h : exec .humanize s = .next t) :
    t.errcode = if s.tblValid = false then .notConfigured else (inputError s).getD .success := by
  cases hv : s.tblValid with
  | false => exact errcode_of_exec h (exec_humanize_notConfigured hv)
  | true =>
    cases he : inputError s with
    | some e => exact errcode_of_exec h (exec_humanize_error hv he)
    | none => exact errcode_of_exec h (exec_humanize_ready hv he)

/-- The ERRCODE of LOOKUP (R213). -/
theorem errcode_lookup {b : Byte} (h : exec (.lookup b) s = .next t) :
    t.errcode = if s.tblValid = false then .notConfigured else .success := by
  cases hv : s.tblValid with
  | false => exact errcode_of_exec h (exec_lookup_notConfigured hv b)
  | true => exact errcode_of_exec h (exec_lookup_valid hv b)

/-- The ERRCODE of `append` (R141). -/
theorem State.errcode_append (b : Byte) (s : State) :
    (s.append b).errcode = if maxN ≤ s.inCount then .inputOverflow else .success := by
  obtain ⟨hn, e⟩ | ⟨hn, e⟩ := State.append_cases b s <;> rw [e]
  · exact (if_neg (Nat.not_le.2 hn)).symm
  · exact (if_pos hn).symm

/-- The ERRCODE of PUSHB: the fault of the input, the half pair, the full buffer (R213). -/
theorem errcode_pushb {b : Byte} (h : exec (.pushb b) s = .next t) : t.errcode =
    if s.inFault = .badDigest then .invalidDigest else if s.inFault = .overflow then .inputOverflow
    else if s.hexPend = true then .invalidDigest else if maxN ≤ s.inCount then .inputOverflow else .success := by
  cases hf : s.inFault with
  | badDigest => exact errcode_of_exec h (exec_pushb_badDigest b hf)
  | overflow => exact errcode_of_exec h (exec_pushb_overflow b hf)
  | none =>
    cases hp : s.hexPend with
    | true => exact errcode_of_exec h (exec_pushb_inPair b hf hp)
    | false =>
      exact (errcode_of_exec h (exec_pushb_append b hf hp)).trans (State.errcode_append b s)

/-- The ERRCODE of PUSHHEX: the fault of the input, the code that is no digit, the full buffer at a second digit (R213). -/
theorem errcode_pushhex {c : Byte} (h : exec (.pushhex c) s = .next t) : t.errcode =
    if s.inFault = .badDigest then .invalidDigest else if s.inFault = .overflow then .inputOverflow
    else if hexval c = none then .invalidDigest
    else if s.hexPend = true ∧ maxN ≤ s.inCount then .inputOverflow else .success := by
  cases hf : s.inFault with
  | badDigest => exact errcode_of_exec h (exec_pushhex_badDigest c hf)
  | overflow => exact errcode_of_exec h (exec_pushhex_overflow c hf)
  | none =>
    cases hc : hexval c with
    | none => exact errcode_of_exec h (exec_pushhex_nonHex hf hc)
    | some v =>
      cases hp : s.hexPend with
      | false => obtain rfl := eq_of_exec h (exec_pushhex_first hf hc hp); simp
      | true =>
        obtain rfl := eq_of_exec h (exec_pushhex_second hf hc hp)
        simpa using State.errcode_append (pairByte s.nib v) { s with hexPend := false }

/-- The ERRCODE of TBL_WRITE (R213). -/
theorem errcode_tblWrite (h : exec .tblWrite s = .next t) :
    t.errcode = if s.tblLoading = false then .tableState else .success := by
  obtain rfl := Host.Outcome.next.inj h
  cases s.tblLoading <;> rfl

/-- The ERRCODE of TBL_END: the open load comes before the number of entries (R213). -/
theorem errcode_tblEnd (h : exec .tblEnd s = .next t) : t.errcode =
    if s.tblLoading = false then .tableState
    else if s.count = 256 ∧ s.excess = false then .success else .invalidConfiguration := by
  cases hl : s.tblLoading with
  | false => exact errcode_of_exec h (exec_tblEnd_closed hl)
  | true =>
    by_cases hc : s.count = 256 ∧ s.excess = false
    · exact (errcode_of_exec h (exec_tblEnd_exact hl hc)).trans (if_pos hc).symm
    · exact (errcode_of_exec h (exec_tblEnd_wrong hl hc)).trans (if_neg hc).symm

end

/-- Settles O41, by the ERRCODE of each command, with the checks of COMPRESS in the order of `inputError_getD_success`. -/
theorem firstApplicableErrorIsReported : Obligations.FirstApplicableErrorIsReported := by
  unfold Obligations.FirstApplicableErrorIsReported
  intro s t bad ovf full target
  have htarget : (inputError s).getD .success = target .success := inputError_getD_success s
  refine ⟨fun h => htarget ▸ errcode_humanize h, fun h => htarget ▸ errcode_compress h, fun b => errcode_lookup,
    fun b => errcode_pushb, fun c => errcode_pushhex, errcode_tblWrite, errcode_tblEnd, fun w e hd h => ?_⟩
  obtain rfl := Host.Outcome.next.inj (h.symm.trans (perform_of_decode_error hd s))
  rfl

end Sys2Proof.Machine

/-! PROOFS. The statements of the family 70_reset_and_hazards.md. Before them, each said once: that two arrays or tables
still agree after the same write, that COMPRESS reads IN below N only, and that a read, a move of the host and each command
keep two states indistinguishable. -/

namespace Sys2Proof.Machine

/-! ### What two arrays, two tables and two inputs must share -/

/-- Arrays that agree below `n` agree below `n + 1` once both hold the same value at `n`. -/
theorem Cells.get_set_congr {w n : Nat} {c d : Cells w} (hc : Cells.wf c = true) (hd : Cells.wf d = true) (v : BitVec w)
    (h : ∀ k, k < n → Cells.get d k = Cells.get c k) (k : Nat) (hk : k < n + 1) :
    Cells.get (Cells.set d n v) k = Cells.get (Cells.set c n v) k := by
  obtain rfl | hne := eq_or_ne k n
  · rw [Cells.get_set_self d v hd, Cells.get_set_self c v hc]
  · rw [Cells.get_set_of_ne d v hne, Cells.get_set_of_ne c v hne, h k (by omega)]

/-- A run of values written from 0 on reads the same, whatever the arrays held before. -/
theorem Cells.get_setFrom_congr {w : Nat} {c d : Cells w} (hc : Cells.wf c = true) (hd : Cells.wf d = true)
    (vs : List (BitVec w)) (k : Nat) (hk : k < vs.length) :
    Cells.get (Cells.setFrom d 0 vs) k = Cells.get (Cells.setFrom c 0 vs) k := by
  have hget {e : Cells w} (he : Cells.wf e = true) : Cells.get (Cells.setFrom e 0 vs) k = vs[k] := by
    simpa only [Nat.zero_add] using Cells.get_setFrom_inside vs e 0 k he hk
  rw [hget hd, hget hc]

/-- The same for tables: an entry more written at `n`, and the tables agree below `n + 1`. -/
theorem getElem_set_congr {n m : Nat} {a b : Vector Token m} (hn : n < m) (t : Token)
    (h : ∀ (k : Nat) (hk : k < m), k < n → b[k] = a[k]) (k : Nat) (hk : k < m) (hlt : k < n + 1) :
    (b.set n t hn)[k] = (a.set n t hn)[k] := by
  rw [Vector.getElem_set, Vector.getElem_set]
  exact ite_congr rfl (fun _ => rfl) fun hne => h k hk (by omega)

/-- Every index of a segment lies within the input (R171). -/
theorem lt_of_mem_segIndices {n t i k : Nat} (htn : t ≤ n) (hi : i < t) (hk : k ∈ segIndices n t i) : k < n := by
  rw [← List.mem_range, ← flatMap_segIndices (by omega) htn]
  exact List.mem_flatMap.2 ⟨i, List.mem_range.2 hi, hk⟩

/-- Compress reads IN below N only (R171). -/
theorem compress_congr {rd rd' : Nat → Byte} {n t : Nat} (htn : t ≤ n) (h : ∀ k, k < n → rd' k = rd k) :
    compress rd' n t = compress rd n t := by
  rw [compress_eq_map_xorAll rd' htn, compress_eq_map_xorAll rd htn]
  refine List.map_congr_left fun i hi => congrArg xorAll (List.map_congr_left fun k hk => ?_)
  exact h k (lt_of_mem_segIndices htn (List.mem_range.1 hi) hk)

/-! ### The states that differ in unspecified contents only -/

/-- `s` with the contents of NIB, IN, CK, WD and TBL as in `y` (R50 to R54). -/
def State.withContentsOf (s y : State) : State :=
  { s with nib := y.nib, inBuf := y.inBuf, ck := y.ck, wd := y.wd, tbl := y.tbl }

/-- The fields that say which contents are specified (R50 to R54, R126). -/
def State.gates (s : State) : Bool × Nat × OutKind × BitVec 24 × Bool × Bool × Nat :=
  (s.hexPend, s.inCount, s.outKind, s.outCount, s.tblValid, s.tblLoading, s.count)

/-- Two conditionals on one test agree up to the contents when their branches do. -/
theorem State.ite_withContentsOf {c : Prop} [Decidable c] {y a a' b b' : State} (ha : a' = a.withContentsOf y)
    (hb : b' = b.withContentsOf y) : (if c then a' else b') = (if c then a else b).withContentsOf y := by
  rw [ha, hb, ← apply_ite (State.withContentsOf · y)]

/-- Two outcomes that no access can tell apart: next states that are indistinguishable, or the same fault. -/
inductive AnswersAlike : Host.Outcome State Fault Refusal → Host.Outcome State Fault Refusal → Prop
  | next {t v : State} (h : Indistinguishable t v) : AnswersAlike (.next t) (.next v)
  | fault (f : Fault) : AnswersAlike (.fault f) (.fault f)

theorem AnswersAlike.of_next {o o' : Host.Outcome State Fault Refusal} {t v : State} (ho : o = .next t)
    (ho' : o' = .next v) (h : Indistinguishable t v) : AnswersAlike o o' := by
  rw [ho, ho']
  exact .next h

theorem AnswersAlike.exists_next {o : Host.Outcome State Fault Refusal} {t : State} (h : AnswersAlike (.next t) o) :
    ∃ v, o = .next v ∧ Indistinguishable t v := by
  obtain ⟨h⟩ := h
  exact ⟨_, rfl, h⟩

theorem AnswersAlike.eq_fault {o : Host.Outcome State Fault Refusal} {f : Fault} (h : AnswersAlike (.fault f) o) :
    o = .fault f := by
  cases h
  rfl

/-- The invariant does not speak of who moves next. -/
theorem BlockInv.with_schedule {s : State} (hs : BlockInv s) (ts : List Agent) (k n : Nat) :
    BlockInv { s with turns := ts, waited := k, engineTurns := n } :=
  { hs with }

namespace Indistinguishable

theorem refl (s : State) : Indistinguishable s s :=
  ⟨rfl, fun _ => rfl, fun _ _ => rfl, fun _ _ _ => rfl, fun _ _ _ => rfl, fun _ _ _ _ => rfl⟩

variable {s u : State}

theorem exists_withContentsOf (h : Indistinguishable s u) : ∃ y, u = s.withContentsOf y := ⟨u, h.rest⟩

/-- An update that neither reads nor writes the contents, and keeps the fields that say which are specified, leads to
indistinguishable states. -/
theorem update (h : Indistinguishable s u) {f : State → State} (hgates : ∀ x, (f x).gates = x.gates)
    (hcontents : ∀ x y, f (x.withContentsOf y) = (f x).withContentsOf y) : Indistinguishable (f s) (f u) := by
  have hkept (x : State) : f x = (f x).withContentsOf x := hcontents x x
  obtain ⟨y, rfl⟩ := h.exists_withContentsOf
  obtain ⟨-, hnib, hin, hck, hwd, htbl⟩ := h
  have hg := hgates s
  simp only [State.gates, Prod.mk.injEq] at hg
  obtain ⟨g1, g2, g3, g4, g5, g6, g7⟩ := hg
  rw [hcontents, hkept s]
  refine ⟨rfl, ?_, ?_, ?_, ?_, ?_⟩ <;> simp only [State.withContentsOf, g1, g2, g3, g4, g5, g6, g7]
  · exact hnib
  · exact hin
  · exact hck
  · exact hwd
  · exact htbl

/-! ### Reads and writes of the host -/

/-- Every register has the same value: OUT_CK and OUT_WORD show only what is specified of CK and WD (R43, R44). -/
theorem regValue_eq (h : Indistinguishable s u) (r : Reg) : regValue r u = regValue r s := by
  obtain ⟨y, rfl⟩ := h.exists_withContentsOf
  cases r
  case outCk =>
    exact ite_congr rfl (fun ⟨hkind, hlt⟩ => congrArg (BitVec.setWidth 32) (h.ck hkind _ hlt)) fun _ => rfl
  case outWord => exact ite_congr rfl (fun ⟨hkind, hlt⟩ => h.wd hkind _ hlt) fun _ => rfl
  all_goals rfl

/-- A value left open by R49 reads none of the contents. -/
theorem openValue_withContentsOf (r : Reg) (d : Word) (s y : State) :
    openValue r d (s.withContentsOf y) = openValue r d s := by
  cases r <;> rfl

/-- Every read gives the same value, BUSY or not (R49, R79, R241). -/
theorem regRead_eq (h : Indistinguishable s u) (r : Reg) : (regRead r u).1 = (regRead r s).1 := by
  have hvalue := h.regValue_eq r
  obtain ⟨y, rfl⟩ := h.exists_withContentsOf
  rw [regRead, regRead, apply_ite Prod.fst, apply_ite Prod.fst]
  exact ite_congr rfl (fun _ => openValue_withContentsOf r _ s y) fun _ => hvalue

/-- A read may draw a value and changes nothing else (R76). -/
theorem after_regRead (h : Indistinguishable s u) (r : Reg) : Indistinguishable (regRead r s).2 (regRead r u).2 := by
  refine h.update (f := fun x => (regRead r x).2) (fun x => ?_) fun x y => ?_
  · obtain e | e := regRead_state r x <;> exact (congrArg State.gates e :)
  · rw [regRead, regRead, apply_ite Prod.snd, apply_ite Prod.snd]
    exact State.ite_withContentsOf rfl rfl

/-- The host gets the same reply (R88). -/
theorem after_hostRead (h : Indistinguishable s u) (r : Reg) : Indistinguishable (hostRead r s) (hostRead r u) := by
  have hvalue := h.regRead_eq r
  have hstate := h.after_regRead r
  obtain ⟨y, rfl⟩ := h.exists_withContentsOf
  rw [hostRead, hostRead, hvalue]
  exact hstate.update (f := fun x => { x with replies := (regRead r s).1 :: s.replies }) (fun _ => rfl) fun _ _ => rfl

/-- A write stores in no array, and BUSY is the same (R80). -/
theorem after_regWrite (h : Indistinguishable s u) (r : Reg) (v : Word) :
    Indistinguishable (regWrite r v s) (regWrite r v u) := by
  refine h.update (f := regWrite r v) (fun x => ?_) fun x y => ?_
  · obtain e | ⟨-, e⟩ | ⟨-, e | e | e | e⟩ := regWrite_cases r v x <;> exact (congrArg State.gates e :)
  · cases r
    case cmd | target | data | outIndex => exact State.ite_withContentsOf rfl rfl
    all_goals rfl

theorem after_hostAccess (h : Indistinguishable s u) (r : Reg) (op : BusOp) :
    Indistinguishable (hostAccess r op s) (hostAccess r op u) := by
  cases op with
  | read => exact h.after_hostRead r
  | write v => exact h.after_regWrite r v

theorem with_program (h : Indistinguishable s u) (p : List HostStmt) :
    Indistinguishable { s with program := p } { u with program := p } :=
  h.update (f := fun x => { x with program := p }) (fun _ => rfl) fun _ _ => rfl

theorem with_schedule (h : Indistinguishable s u) (ts : List Agent) (k n : Nat) :
    Indistinguishable { s with turns := ts, waited := k, engineTurns := n }
      { u with turns := ts, waited := k, engineTurns := n } :=
  h.update (f := fun x => { x with turns := ts, waited := k, engineTurns := n }) (fun _ => rfl) fun _ _ => rfl

/-- The host performs the same statement, and the reset input leaves nothing of the contents (R240, R241). -/
theorem hostMove_alike (h : Indistinguishable s u) : AnswersAlike (hostMove s) (hostMove u) := by
  obtain ⟨y, rfl⟩ := h.exists_withContentsOf
  have hp' : (s.withContentsOf y).program = s.program := rfl
  unfold hostMove
  rw [hp']
  split
  case h_1 => exact .next h
  case h_2 r v rest _ => exact .next ((h.with_program rest).after_regWrite r v)
  case h_3 r rest _ => exact .next ((h.with_program rest).after_hostRead r)
  case h_4 =>
    rw [hostPoll_eq, hostPoll_eq]
    exact .next ((h.with_program _).after_hostRead .status)
  case h_5 => exact .next (refl _)
  case h_6 a rest _ =>
    split
    · next r _ => exact .next ((h.with_program rest).after_hostAccess r a.op)
    · exact .fault _

/-! ### The commands -/

theorem after_finish (h : Indistinguishable s u) (e : ErrCode) : Indistinguishable (s.finish e) (u.finish e) :=
  h.update (f := State.finish e) (fun _ => rfl) fun _ _ => rfl

theorem with_inFault (h : Indistinguishable s u) (f : InFault) :
    Indistinguishable { s with inFault := f } { u with inFault := f } :=
  h.update (f := fun x => { x with inFault := f }) (fun _ => rfl) fun _ _ => rfl

/-- Once the pair is complete, NIB is unspecified (R51). -/
theorem end_pair (h : Indistinguishable s u) :
    Indistinguishable { s with hexPend := false } { u with hexPend := false } :=
  ⟨congrArg (fun x : State => { x with hexPend := false }) h.rest, nofun, h.inBuf, h.ck, h.wd, h.tbl⟩

/-- The element appended is the same, and N now covers it (R50, R141). -/
theorem after_append (h : Indistinguishable s u) (hs : Cells.wf s.inBuf = true) (hu : Cells.wf u.inBuf = true)
    (b : Byte) : Indistinguishable (s.append b) (u.append b) := by
  obtain ⟨y, rfl⟩ := h.exists_withContentsOf
  obtain hn | hn := Nat.lt_or_ge s.inCount maxN
  · rw [State.append_room b hn, State.append_room (s := s.withContentsOf y) b hn]
    exact ⟨rfl, h.nib, Cells.get_set_congr hs hu b h.inBuf, h.ck, h.wd, h.tbl⟩
  · rw [State.append_full b hn, State.append_full (s := s.withContentsOf y) b hn]
    exact (h.with_inFault .overflow).after_finish .inputOverflow

theorem exec_pushb_alike (h : Indistinguishable s u) (hs : Cells.wf s.inBuf = true) (hu : Cells.wf u.inBuf = true)
    (b : Byte) : AnswersAlike (exec (.pushb b) s) (exec (.pushb b) u) := by
  have happend := h.after_append hs hu b
  obtain ⟨y, rfl⟩ := h.exists_withContentsOf
  by_cases hf : s.inFault = .none
  · obtain hp | hp := Bool.eq_false_or_eq_true s.hexPend
    · exact .of_next (exec_pushb_inPair b hf hp) (exec_pushb_inPair b hf hp)
        ((h.with_inFault .badDigest).after_finish .invalidDigest)
    · exact .of_next (exec_pushb_append b hf hp) (exec_pushb_append b hf hp) happend
  · exact .of_next (exec_pushb_faulted b rfl hf) (exec_pushb_faulted b rfl hf) (h.after_finish _)

/-- The half pair is the same, so its byte is (R51, R143). -/
theorem exec_pushhex_alike (h : Indistinguishable s u) (hs : Cells.wf s.inBuf = true) (hu : Cells.wf u.inBuf = true)
    (c : Byte) : AnswersAlike (exec (.pushhex c) s) (exec (.pushhex c) u) := by
  have happend := h.end_pair.after_append hs hu
  obtain ⟨y, rfl⟩ := h.exists_withContentsOf
  by_cases hf : s.inFault = .none
  · cases hc : hexval c with
    | none =>
      exact .of_next (exec_pushhex_nonHex hf hc) (exec_pushhex_nonHex hf hc)
        ((h.with_inFault .badDigest).after_finish .invalidDigest)
    | some v =>
      obtain hp | hp := Bool.eq_false_or_eq_true s.hexPend
      · have hpair : pairByte (s.withContentsOf y).nib v = pairByte s.nib v := congrArg (pairByte · v) (h.nib hp)
        refine .of_next (exec_pushhex_second hf hc hp) (exec_pushhex_second hf hc hp) ?_
        rw [hpair]
        exact happend _
      · exact .of_next (exec_pushhex_first hf hc hp) (exec_pushhex_first hf hc hp)
          ⟨rfl, fun _ => rfl, h.inBuf, h.ck, h.wd, h.tbl⟩
  · exact .of_next (exec_pushhex_faulted c rfl hf) (exec_pushhex_faulted c rfl hf) (h.after_finish _)

/-- COMPRESS's function reads the specified part of IN only. -/
theorem checksums_eq (h : Indistinguishable s u) (he : inputError s = none) : u.checksums = s.checksums := by
  obtain ⟨-, -, -, htn⟩ := (inputError_eq_none s).1 he
  obtain ⟨y, rfl⟩ := h.exists_withContentsOf
  exact compress_congr htn h.inBuf

/-- The checksums stored are the same, and are all of CK that is specified then (R52). -/
theorem ck_storeChecksums_eq (h : Indistinguishable s u) (hs : Cells.wf s.ck = true) (hu : Cells.wf u.ck = true)
    (he : inputError s = none) (kind : OutKind) (k : Nat) (hk : k < s.target.toNat) :
    Cells.get (u.storeChecksums kind u.checksums).ck k = Cells.get (s.storeChecksums kind s.checksums).ck k := by
  rw [State.storeChecksums_ck, State.storeChecksums_ck, h.checksums_eq he]
  exact Cells.get_setFrom_congr hs hu s.checksums k (hk.trans_eq s.length_checksums.symm)

/-- What COMPRESS leaves specified are the checksums, and no word (R52, R53, R166). -/
theorem exec_compress_alike (h : Indistinguishable s u) (hs : Cells.wf s.ck = true) (hu : Cells.wf u.ck = true) :
    AnswersAlike (exec .compress s) (exec .compress u) := by
  have hck := h.ck_storeChecksums_eq hs hu
  obtain ⟨y, rfl⟩ := h.exists_withContentsOf
  cases he : inputError s with
  | some e => exact .of_next (exec_compress_error he) (exec_compress_error he) (h.after_finish e)
  | none =>
    exact .of_next (exec_compress_ready he) (exec_compress_ready he)
      ⟨rfl, h.nib, h.inBuf, fun _ => hck he .checksums, nofun, h.tbl⟩

/-- A valid table is specified in every entry (R54, R123). -/
theorem tbl_eq (h : Indistinguishable s u) (hs : BlockInv s) (hv : s.tblValid = true) : u.tbl = s.tbl := by
  obtain ⟨hcount, -⟩ := hs.valid_full hv
  exact Vector.ext fun k hk => h.tbl (.inl hv) k hk (hcount ▸ hk)

theorem exec_lookup_alike (h : Indistinguishable s u) (hs : BlockInv s) (b : Byte) :
    AnswersAlike (exec (.lookup b) s) (exec (.lookup b) u) := by
  have htbl := h.tbl_eq hs
  obtain ⟨y, rfl⟩ := h.exists_withContentsOf
  obtain hv | hv := Bool.eq_false_or_eq_true s.tblValid
  · refine .of_next (exec_lookup_valid hv b) (exec_lookup_valid (s := s.withContentsOf y) hv b) ?_
    rw [word_of_tbl (htbl hv)]
    exact h.update (f := fun x => { x with lkResult := word s b, errcode := .success }) (fun _ => rfl) fun _ _ => rfl
  · exact .of_next (exec_lookup_notConfigured hv b) (exec_lookup_notConfigured (s := s.withContentsOf y) hv b)
      (h.after_finish _)

/-- The words stored are the same, and are all of WD that is specified then (R53). -/
theorem wd_storeWords_eq (h : Indistinguishable s u) (hs : BlockInv s) (hu : BlockInv u) (hv : s.tblValid = true)
    (he : inputError s = none) (k : Nat) (hk : k < s.target.toNat) :
    Cells.get ((u.storeChecksums .words u.checksums).storeWords u.checksums).wd k =
      Cells.get ((s.storeChecksums .words s.checksums).storeWords s.checksums).wd k := by
  have hword : word (u.storeChecksums .words s.checksums) = word (s.storeChecksums .words s.checksums) :=
    word_of_tbl (h.tbl_eq hs hv)
  have hk' : k < s.checksums.length := hk.trans_eq s.length_checksums.symm
  rw [h.checksums_eq he, State.get_wd_storeWords (s := u.storeChecksums .words s.checksums) hu.wd_wf hk',
    State.get_wd_storeWords (s := s.storeChecksums .words s.checksums) hs.wd_wf hk', hword]

/-- What HUMANIZE leaves specified are the checksums and their words (R52, R53, R183). -/
theorem exec_humanize_alike (h : Indistinguishable s u) (hs : BlockInv s) (hu : BlockInv u) :
    AnswersAlike (exec .humanize s) (exec .humanize u) := by
  have hck := h.ck_storeChecksums_eq hs.ck_wf hu.ck_wf
  have hwd := h.wd_storeWords_eq hs hu
  obtain ⟨y, rfl⟩ := h.exists_withContentsOf
  obtain hv | hv := Bool.eq_false_or_eq_true s.tblValid
  · cases he : inputError s with
    | some e => exact .of_next (exec_humanize_error hv he) (exec_humanize_error hv he) (h.after_finish e)
    | none =>
      exact .of_next (exec_humanize_ready hv he) (exec_humanize_ready hv he)
        ⟨rfl, h.nib, h.inBuf, fun _ => hck he .words, fun _ => hwd hv he, h.tbl⟩
  · exact .of_next (exec_humanize_notConfigured hv) (exec_humanize_notConfigured hv) (h.after_finish _)

/-- The entry offered is the same, and COUNT now covers it (R121, R126). -/
theorem exec_tblWrite_alike (h : Indistinguishable s u) : AnswersAlike (exec .tblWrite s) (exec .tblWrite u) := by
  obtain ⟨y, rfl⟩ := h.exists_withContentsOf
  obtain hl | hl := Bool.eq_false_or_eq_true s.tblLoading
  · obtain hc | hc := Nat.lt_or_ge s.count 256
    · exact .of_next (exec_tblWrite_room hl hc) (exec_tblWrite_room (s := s.withContentsOf y) hl hc)
        ⟨rfl, h.nib, h.inBuf, h.ck, h.wd, fun _ => getElem_set_congr hc s.data (h.tbl (.inr hl))⟩
    · exact .of_next (exec_tblWrite_full hl hc) (exec_tblWrite_full hl hc)
        (h.update (f := fun x => { x with excess := true, errcode := .success }) (fun _ => rfl) fun _ _ => rfl)
  · exact .of_next (exec_tblWrite_closed hl) (exec_tblWrite_closed hl) (h.after_finish _)

/-- A load that TBL_END accepts has its entries specified; a load it refuses leaves none (R123, R126). -/
theorem exec_tblEnd_alike (h : Indistinguishable s u) : AnswersAlike (exec .tblEnd s) (exec .tblEnd u) := by
  obtain ⟨y, rfl⟩ := h.exists_withContentsOf
  obtain hl | hl := Bool.eq_false_or_eq_true s.tblLoading
  · by_cases hc : s.count = 256 ∧ s.excess = false
    · exact .of_next (exec_tblEnd_exact hl hc) (exec_tblEnd_exact hl hc)
        ⟨rfl, h.nib, h.inBuf, h.ck, h.wd, fun _ => h.tbl (.inr hl)⟩
    · exact .of_next (exec_tblEnd_wrong hl hc) (exec_tblEnd_wrong hl hc)
        ⟨rfl, h.nib, h.inBuf, h.ck, h.wd, by rintro (hv | hv) <;> cases hv⟩
  · exact .of_next (exec_tblEnd_closed hl) (exec_tblEnd_closed hl) (h.after_finish _)

/-- Every command keeps what no access can tell apart. -/
theorem exec_alike (h : Indistinguishable s u) (hs : BlockInv s) (hu : BlockInv u) (i : Instr) :
    AnswersAlike (exec i s) (exec i u) := by
  cases i
  case nop => exact .next (h.after_finish .success)
  case clrerr =>
    exact .next (h.update (f := fun x => { x with overrun := false, errcode := .success }) (fun _ => rfl)
      fun _ _ => rfl)
  case clrin =>
    obtain ⟨y, rfl⟩ := h.exists_withContentsOf
    exact .next ⟨rfl, nofun, fun _ => nofun, h.ck, h.wd, h.tbl⟩
  case pushb b => exact h.exec_pushb_alike hs.inBuf_wf hu.inBuf_wf b
  case pushhex c => exact h.exec_pushhex_alike hs.inBuf_wf hu.inBuf_wf c
  case compress => exact h.exec_compress_alike hs.ck_wf hu.ck_wf
  case humanize => exact h.exec_humanize_alike hs hu
  case lookup b => exact h.exec_lookup_alike hs b
  case tblBegin =>
    obtain ⟨y, rfl⟩ := h.exists_withContentsOf
    exact .next ⟨rfl, h.nib, h.inBuf, h.ck, h.wd, fun _ _ _ => nofun⟩
  case tblWrite => exact h.exec_tblWrite_alike
  case tblEnd => exact h.exec_tblEnd_alike
  case tblDefault =>
    obtain ⟨y, rfl⟩ := h.exists_withContentsOf
    exact .next ⟨rfl, h.nib, h.inBuf, h.ck, h.wd, fun _ _ _ _ => rfl⟩

/-! ### The step -/

/-- Emptying PEND at the end of the engine's step (R20). -/
theorem retired_alike {o o' : Host.Outcome State Fault Refusal} (h : AnswersAlike o o') :
    AnswersAlike (retired o) (retired o') := by
  cases h with
  | next h => exact .next (h.update (f := State.retire) (fun _ => rfl) fun _ _ => rfl)
  | fault f => exact .fault f

theorem perform_alike (h : Indistinguishable s u) (hs : BlockInv s) (hu : BlockInv u) (w : Word) :
    AnswersAlike (perform w s) (perform w u) := by
  unfold perform
  split
  · exact h.exec_alike hs hu _
  · exact .next (h.after_finish .illegalCommand)

theorem engineMove_alike (h : Indistinguishable s u) (hs : BlockInv s) (hu : BlockInv u) :
    AnswersAlike (engineMove s) (engineMove u) := by
  have hpend : u.pend = s.pend := (congrArg State.pend h.rest :)
  unfold engineMove
  rw [hpend]
  split
  · exact .next h
  · next w _ => exact retired_alike (h.perform_alike hs hu w)

theorem turnMove_alike (h : Indistinguishable s u) (hs : BlockInv s) (hu : BlockInv u) (a : Agent) :
    AnswersAlike (turnMove (a, s)) (turnMove (a, u)) := by
  cases a with
  | host => exact h.hostMove_alike
  | engine => exact h.engineMove_alike hs hu

/-- Who moves is the same, and so is what the move does (R82). -/
theorem step_alike (h : Indistinguishable s u) (hs : BlockInv s) (hu : BlockInv u) :
    AnswersAlike (step s) (step u) := by
  have hturn (ts : List Agent) (k n : Nat) :=
    (h.with_schedule ts k n).turnMove_alike (hs.with_schedule ts k n) (hu.with_schedule ts k n)
  have hhost := h.hostMove_alike
  have hengine := h.engineMove_alike hs hu
  obtain ⟨y, rfl⟩ := h.exists_withContentsOf
  cases hp : s.pend with
  | none =>
    obtain hh | hh := Bool.eq_false_or_eq_true (hostReady s)
    · rw [step_host hp hh, step_host (s := s.withContentsOf y) hp hh]
      exact hhost
    · rw [step_eq_noMove hp hh, step_eq_noMove (s := s.withContentsOf y) hp hh]
      have hprog : (s.withContentsOf y).program = s.program := rfl
      unfold noMove
      rw [hprog]
      split
      · exact .next h
      · exact .fault _
  | some w =>
    obtain hh | hh := Bool.eq_false_or_eq_true (hostReady s)
    · cases hts : s.turns with
      | cons a ts =>
        rw [step_turn hp hh hts, step_turn (s := s.withContentsOf y) hp hh hts]
        exact hturn ts s.waited s.engineTurns a
      | nil =>
        obtain hw | hw := Nat.lt_or_ge s.waited (hostMovesBefore s.engineTurns)
        · rw [step_waiting hp hh hts hw, step_waiting (s := s.withContentsOf y) hp hh hts hw]
          exact hturn s.turns (s.waited + 1) s.engineTurns .host
        · rw [step_engine_due hp hh hts hw, step_engine_due (s := s.withContentsOf y) hp hh hts hw]
          exact hturn s.turns 0 (s.engineTurns + 1) .engine
    · rw [step_eq_engineMove hp hh, step_eq_engineMove (s := s.withContentsOf y) hp hh]
      exact hengine

end Indistinguishable

/-- Settles O46: every read by `Indistinguishable.regRead_eq`, the step by `Indistinguishable.step_alike`. -/
theorem unspecifiedContentsAreUnobservable : Obligations.UnspecifiedContentsAreUnobservable := by
  unfold Obligations.UnspecifiedContentsAreUnobservable
  intro s u hs hu h
  have hstep := h.step_alike hs hu
  refine ⟨h.regRead_eq, fun t ht => ?_, fun f hf => ?_⟩
  · rw [ht] at hstep
    exact hstep.exists_next
  · rw [hf] at hstep
    exact hstep.eq_fault

/-! ### Reset -/

/-- The host's move at the reset input (R240). -/
theorem hostMove_reset {s : State} {rest : List HostStmt} (hprog : s.program = .reset :: rest) :
    hostMove s = .next (applyReset { s with program := rest }) := by
  simp only [hostMove, hprog]

/-- With both agents able to move and `turns` empty, the host moves until the engine's turn has come (R250). -/
theorem step_turns_nil {s : State} {w : Word} (hp : s.pend = some w) (hh : hostReady s = true) (hts : s.turns = []) :
    step s = if s.waited < hostMovesBefore s.engineTurns then hostMove { s with waited := s.waited + 1 }
      else engineMove { s with waited := 0, engineTurns := s.engineTurns + 1 } := by
  split
  · next hw => exact step_waiting hp hh hts hw
  · next hw => exact step_engine_due hp hh hts (Nat.not_lt.1 hw)

/-- Settles O11: the move is `hostMove_reset`, and who moves is `step_host`, `step_turn` and `step_turns_nil`. -/
theorem resetDiscardsThePendingCommand : Obligations.ResetDiscardsThePendingCommand := by
  unfold Obligations.ResetDiscardsThePendingCommand
  intro s rest hprog
  have hh : hostReady s = true := by rw [hostReady, hprog]
  refine ⟨⟨_, hostMove_reset hprog, ?_⟩, fun hp => step_host hp hh, fun w ts hp hts => step_turn hp hh hts,
    fun w hp hts => step_turns_nil hp hh hts⟩
  exact ⟨rfl, rfl, rfl, rfl, rfl, rfl, rfl, rfl, rfl, rfl, rfl, rfl, rfl, rfl, rfl, rfl, rfl, rfl⟩

/-! ### Register writes -/

/-- An output that is valid is one of the two kinds (R35). -/
theorem OutKind.ne_nothing_iff (k : OutKind) : k ≠ .nothing ↔ k = .checksums ∨ k = .words := by
  cases k <;> decide

/-- Settles O59: what an idle write stores is `operandRegistersStoreOnlyWhileIdle`, what the reads after it give is
`idleReadsReturnTheRegisters`, and the entry stored is `exec_tblWrite_room`'s. -/
theorem registerWritesTakeEffectAtOnce : Obligations.RegisterWritesTakeEffectAtOnce := by
  unfold Obligations.RegisterWritesTakeEffectAtOnce
  intro s t v hp
  obtain ⟨hidle, -⟩ := operandRegistersStoreOnlyWhileIdle s v
  obtain ⟨a, b, c, htarget, ha, hdata, rfl, hindex, hc⟩ := hidle hp
  rw [htarget, hdata, hindex]
  obtain ⟨-, -, -, -, -, hreadTarget, -⟩ := idleReadsReturnTheRegisters { s with target := a } hp
  obtain ⟨-, -, -, -, -, -, -, hreadData, -⟩ := idleReadsReturnTheRegisters { s with data := b } hp
  obtain ⟨-, -, -, -, -, -, -, -, -, hreadIndex, hreadCk, -⟩ :=
    idleReadsReturnTheRegisters { s with outIndex := c } hp
  refine ⟨hreadTarget.trans ha, hreadData, hreadIndex.trans hc, fun hlt hl h => ?entry, fun hlt hkind => ?checksum⟩
  case entry =>
    obtain rfl := eq_of_exec h (exec_tblWrite_room (s := { s with data := b }) hl hlt)
    exact Vector.getElem_set_self hlt
  case checksum =>
    have hcv : c.toNat = b.toNat := by rw [hc, Nat.mod_eq_of_lt (hlt.trans s.outCount.isLt)]
    rw [hreadCk, ← hcv]
    exact if_pos ⟨(OutKind.ne_nothing_iff _).1 hkind, hcv.trans_lt hlt⟩

end Sys2Proof.Machine

/-! PROOFS. The statements of the family other: the encoding as a whole, what a command writes, the packed registers, who
moves, reset, and the invariant. Before them, each said once: an operand as a number, the frame of each command, a field
among its bits, what a step can be, and that each part of a command keeps the invariant. -/

namespace Sys2Proof.Machine

/-! ### Encoding -/

/-- Settles O1, by `eq_encode_of_decode` and `decode_encode`. -/
theorem decodesToCommandIffItsEncoding : Obligations.DecodesToCommandIffItsEncoding := by
  unfold Obligations.DecodesToCommandIffItsEncoding
  intro w i
  constructor
  · exact eq_encode_of_decode
  · rintro rfl
    exact decode_encode i

/-- Settles O4: each word is that of its command, so `decode_encode` reads it back. -/
theorem tableWordsDecodeToTheirCommands : Obligations.TableWordsDecodeToTheirCommands := by
  unfold Obligations.TableWordsDecodeToTheirCommands
  exact ⟨decode_encode .nop, decode_encode .clrerr, decode_encode .clrin, decode_encode (.pushb 0xFF),
    decode_encode (.pushhex 0x61), decode_encode .compress, decode_encode .humanize, decode_encode (.lookup 0x4D),
    decode_encode .tblBegin, decode_encode .tblWrite, decode_encode .tblEnd, decode_encode .tblDefault⟩

/-- The word of a command as one number, (OP << 24) | imm8 (R106). -/
theorem encode_eq_ofNat (i : Instr) : encode i = BitVec.ofNat 32 (i.op.toNat * 2 ^ 24 + i.operandByte.toNat) := by
  rw [Nat.mul_comm, ← toNat_encode, BitVec.ofNat_toNat, BitVec.setWidth_eq]

/-- A number as an operand: in form B the word is (OP << 24) | imm8, and beyond 255 there is none (R106). -/
theorem encode_byteOperand {f : Byte → Instr} {op : Byte} (hop : ∀ b, (f b).op = op)
    (hf : ∀ b, (f b).operandByte = b) (n : Nat) :
    ((byteOperand? n).map f).map encode =
      if n ≤ 255 then some (BitVec.ofNat 32 (op.toNat * 2 ^ 24 + n)) else none := by
  by_cases hn : n ≤ 255
  · have hbyte : (BitVec.ofNat 8 n).toNat = n := Nat.mod_eq_of_lt (by omega)
    simp [byteOperand?, operandInRange, hn, encode_eq_ofNat, hop, hf, hbyte]
  · simp [byteOperand?, operandInRange, hn]

/-- A character as an operand is its ASCII code, an operand in range; another character is an error (R144; log entry
11). -/
theorem charCode_eq_byteOperand (c : Char) :
    charCode? c = if c.toNat < 128 then byteOperand? c.toNat else none := by
  by_cases hc : c.toNat < 128
  · simp [charCode?, asciiChar, byteOperand?, operandInRange, hc, show c.toNat ≤ 255 by omega]
  · simp [charCode?, asciiChar, hc]

/-- A character between apostrophes is no number (R106). -/
theorem readNumber_quoted (c : Char) : readNumber ['\'', c, '\''] = none := rfl

/-- PUSHHEX with an operand that reads as a number takes the number as the code (R106). -/
theorem parseAsm_pushhex_number {x : String} {n : Nat} (h : readNumber x.toList = some n) :
    parseAsm ["PUSHHEX", x] = some (.pushhexCode n) := by
  simp only [parseAsm]
  split
  · next c hx =>
    rw [hx, readNumber_quoted] at h
    cases h
  · rw [h]
    rfl

/-- Settles O5: the words without operand by evaluation, an operand by `encode_byteOperand`, a character as the number
`charCode_eq_byteOperand` makes of it. -/
theorem assemblerEmitsOpcodeAndOperand : Obligations.AssemblerEmitsOpcodeAndOperand := by
  unfold Obligations.AssemblerEmitsOpcodeAndOperand
  have hpushhex := encode_byteOperand (f := .pushhex) (op := 0x03) (fun _ => rfl) fun _ => rfl
  refine ⟨by decide, fun n => ⟨?_, hpushhex n, ?_⟩, fun x c hx => ?char, fun x n hx => ?number⟩
  · exact encode_byteOperand (f := .pushb) (op := 0x02) (fun _ => rfl) (fun _ => rfl) n
  · exact encode_byteOperand (f := .lookup) (op := 0x06) (fun _ => rfl) (fun _ => rfl) n
  case char =>
    have hline : assembleLine ["PUSHHEX", x] = ((charCode? c).map .pushhex).map encode := by
      simp only [assembleLine, parseAsm, hx]
      rfl
    rw [hline, charCode_eq_byteOperand]
    split
    · exact (hpushhex _).trans (if_pos (by omega))
    · rfl
  case number =>
    simp only [assembleLine, parseAsm_pushhex_number hx]
    simp [parseAsm, hx]

/-! ### What each command writes -/

/-- `s` with the registers and arrays that the rules let `i` write as in `u` (10_state.md sections 2 and 3). -/
def State.withWritesOf (i : Instr) (s u : State) : State :=
  match i with
  | .nop => { s with errcode := u.errcode }
  | .clrin => { s with errcode := u.errcode, inCount := u.inCount, hexPend := u.hexPend, inFault := u.inFault }
  | .pushb _ => { s with errcode := u.errcode, inCount := u.inCount, inFault := u.inFault, inBuf := u.inBuf }
  | .pushhex _ => s.withInputOf u
  | .compress => { s with errcode := u.errcode, outCount := u.outCount, outKind := u.outKind, ck := u.ck }
  | .humanize => { s with errcode := u.errcode, outCount := u.outCount, outKind := u.outKind, ck := u.ck, wd := u.wd }
  | .lookup _ => { s with errcode := u.errcode, lkResult := u.lkResult }
  | .tblBegin =>
    { s with errcode := u.errcode, tblValid := u.tblValid, tblLoading := u.tblLoading, count := u.count,
             excess := u.excess }
  | .tblWrite => { s with errcode := u.errcode, count := u.count, excess := u.excess, tbl := u.tbl }
  | .tblEnd => { s with errcode := u.errcode, tblValid := u.tblValid, tblLoading := u.tblLoading }
  | .tblDefault =>
    { s with errcode := u.errcode, tblValid := u.tblValid, tblLoading := u.tblLoading, count := u.count,
             excess := u.excess, tbl := u.tbl }
  | .clrerr => { s with errcode := u.errcode, overrun := u.overrun }

/-- PUSHB outside its faults is `append`, which writes IN, N, IN_FAULT and ERRCODE (R141, R142). -/
theorem exec_pushb_frame {b : Byte} {s t : State} (h : exec (.pushb b) s = .next t) :
    t = s.withWritesOf (.pushb b) t := by
  obtain rfl := Host.Outcome.next.inj h
  split_ifs
  case neg => obtain ⟨-, e⟩ | ⟨-, e⟩ := State.append_cases b s <;> rw [e] <;> rfl
  all_goals rfl

/-- A command changes nothing but what its rule lets it write. -/
theorem exec_frame {i : Instr} {s t : State} (h : exec i s = .next t) : t = s.withWritesOf i t := by
  cases i
  case pushb b => exact exec_pushb_frame h
  case pushhex c =>
    obtain rfl := eq_of_exec h (exec_eq_next _ s)
    exact execState_pushhex_frame c s
  case compress => obtain ⟨e, -, rfl⟩ | ⟨-, rfl⟩ := exec_compress_cases h <;> rfl
  case humanize => obtain ⟨e, -, rfl⟩ | ⟨-, -, rfl⟩ := exec_humanize_cases h <;> rfl
  all_goals obtain rfl := Host.Outcome.next.inj h
  case lookup b => split <;> rfl
  case tblWrite =>
    split
    · obtain ⟨_, e⟩ | ⟨_, e⟩ := State.addEntry_cases s <;> rw [e] <;> rfl
    · rfl
  case tblEnd => split_ifs <;> rfl
  all_goals rfl

/-- Settles O44, by `exec_frame`; that TBL_WRITE keeps TBL outside a load is `exec_tblWrite_closed`. -/
theorem commandsWriteOnlyTheirOwnRegisters : Obligations.CommandsWriteOnlyTheirOwnRegisters := by
  unfold Obligations.CommandsWriteOnlyTheirOwnRegisters
  intro i s t h
  have hclosed (hi : i = .tblWrite) (hl : s.tblLoading = false) : t.tbl = s.tbl := by
    subst hi
    obtain rfl := eq_of_exec h (exec_tblWrite_closed hl)
    rfl
  obtain ⟨u, rfl⟩ : ∃ u, t = s.withWritesOf i u := ⟨t, exec_frame h⟩
  cases i
  case tblWrite => simpa [State.withWritesOf] using hclosed rfl
  all_goals simp [State.withWritesOf, State.withInputOf]

/-! ### The packed registers -/

section

variable {w lo : Nat} (v : BitVec w)

/-- A field reads back from its own bits. -/
theorem extractLsb'_bitsAt_self (h : lo + w ≤ 32) : (bitsAt lo v).extractLsb' lo w = v := by
  apply BitVec.eq_of_getLsbD_eq
  intro k hk
  rw [BitVec.getLsbD_extractLsb', getLsbD_bitsAt]
  simp [hk, show lo + k < 32 by omega]

/-- A field is 0 at bits that are not its own. -/
theorem extractLsb'_bitsAt_disjoint {a len : Nat} (h : a + len ≤ lo ∨ lo + w ≤ a) :
    (bitsAt lo v).extractLsb' a len = 0 := by
  apply BitVec.eq_of_getLsbD_eq
  intro k hk
  rw [BitVec.getLsbD_extractLsb', getLsbD_bitsAt]
  by_cases hlo : lo ≤ a + k
  · simp [BitVec.getLsbD_of_ge v (a + k - lo) (by omega)]
  · simp [hlo]

/-- Two fields side by side, the lower at bit 0, as a number. -/
theorem toNat_bitsAt_or_bitsAt_zero {n : Nat} (u : BitVec n) (hn : n ≤ lo) (h : lo + w ≤ 32) :
    (bitsAt lo v ||| bitsAt 0 u).toNat = 2 ^ lo * v.toNat + u.toNat := by
  have hu : u.toNat < 2 ^ lo := u.isLt.trans_le (Nat.pow_le_pow_right (by decide) hn)
  have hlow : (bitsAt 0 u).toNat = u.toNat := by
    rw [bitsAt, BitVec.shiftLeft_zero, BitVec.toNat_setWidth_of_le (by omega)]
  have hhigh : (bitsAt lo v).toNat = 2 ^ lo * v.toNat := by
    have hfits : v.toNat * 2 ^ lo < 2 ^ 32 :=
      calc v.toNat * 2 ^ lo < 2 ^ w * 2 ^ lo := Nat.mul_lt_mul_of_pos_right v.isLt (Nat.two_pow_pos lo)
        _ = 2 ^ (w + lo) := (Nat.pow_add ..).symm
        _ ≤ 2 ^ 32 := Nat.pow_le_pow_right (by decide) (by omega)
    rw [bitsAt, BitVec.toNat_shiftLeft, BitVec.toNat_setWidth_of_le (by omega), Nat.shiftLeft_eq,
      Nat.mod_eq_of_lt hfits, Nat.mul_comm]
  rw [BitVec.toNat_or, hlow, hhigh, ← Nat.two_pow_add_eq_or_of_lt hu]

end

/-- ERR is set exactly when ERRCODE is not that of success (R28, R211). -/
theorem State.err_eq (s : State) : s.err = decide (s.errcode ≠ .success) := by
  rw [State.err]
  cases s.errcode <;> rfl

/-- CAP as a number (R24). -/
theorem toNat_capWord : capWord.toNat = 0x01000000 + maxN := by
  have hmax : (BitVec.ofNat 24 maxN).toNat = maxN := Nat.mod_eq_of_lt (Nat.lt_succ_of_le maxN_le)
  rw [capWord, toNat_bitsAt_or_bitsAt_zero _ _ (le_refl _) (by decide), hmax]
  rfl

/-- TBL_COUNT as a number (R39). -/
theorem toNat_tblCountWord {s : State} (hc : s.count ≤ 256) :
    (tblCountWord s).toNat = s.count + (if s.excess then 512 else 0) := by
  have hcount : (BitVec.ofNat 9 s.count).toNat = s.count := Nat.mod_eq_of_lt (by omega)
  rw [tblCountWord, toNat_bitsAt_or_bitsAt_zero _ _ (le_refl _) (by decide), hcount]
  cases s.excess
  · simp
  · simp [Nat.add_comm]

/-- Settles O49: each field is read by the laws of `bitsAt`, its own bits by `extractLsb'_bitsAt_self`, all other bits as 0
by `extractLsb'_bitsAt_disjoint`. -/
theorem packedRegistersHoldTheirFields : Obligations.PackedRegistersHoldTheirFields := by
  unfold Obligations.PackedRegistersHoldTheirFields
  intro s
  simp only [statusWord, State.err_eq, BitVec.getLsbD_or, getLsbD_bitsAt, BitVec.extractLsb'_or]
  refine ⟨?_, ?_, ?_, ?_, ?_, ?_, ?_, ?_, ?_, ?_, ?_, ?_, ?_, toNat_capWord, toNat_tblCountWord⟩
  all_goals simp [extractLsb'_bitsAt_self, extractLsb'_bitsAt_disjoint]

/-! ### The invariant, part by part of a command -/

/-- Settles O12: at reset the default table is valid and full, there is no output, and the arrays list nothing. -/
theorem resetSatisfiesTheInvariant : Obligations.ResetSatisfiesTheInvariant where
  loading_not_valid := nofun
  inCount_le := Nat.zero_le _
  count_le := le_refl _
  excess_full := nofun
  valid_full _ := ⟨rfl, rfl⟩
  overflow_full := nofun
  outputs_some h := absurd rfl h
  outputs_none _ := rfl
  inBuf_wf := rfl
  ck_wf := rfl
  wd_wf := rfl
  inBuf_within := rfl
  ck_within := rfl
  wd_within := rfl

namespace BlockInv

variable {s t : State}

/-- The invariant does not speak of ERRCODE. -/
theorem finish (hs : BlockInv s) (e : ErrCode) : BlockInv (s.finish e) := { hs with }

/-- A digest marked malformed is not an overflowed input (R142, R143). -/
theorem mark_badDigest (hs : BlockInv s) : BlockInv { s with inFault := .badDigest } :=
  { hs with overflow_full := nofun }

/-- A pair may end in any state (R143). -/
theorem end_pair (hs : BlockInv s) : BlockInv { s with hexPend := false } :=
  { hs with overflow_full := fun h => ⟨(hs.overflow_full h).1, rfl⟩ }

/-- An append outside a pair stores below MAX_N, or marks as overflowed an input that is full (R141). -/
theorem append (hs : BlockInv s) (b : Byte) (hf : s.inFault = .none) (hp : s.hexPend = false) :
    BlockInv (s.append b) := by
  obtain ⟨hn, e⟩ | ⟨hn, e⟩ := State.append_cases b s <;> rw [e]
  · exact { hs with
      inCount_le := hn
      overflow_full := fun h => nomatch hf.symm.trans h
      inBuf_wf := Cells.wf_set _ b hs.inBuf_wf
      inBuf_within := Cells.within_set _ b hn hs.inBuf_within }
  · exact { hs with overflow_full := fun _ => ⟨hs.inCount_le.antisymm hn, hp⟩ }

/-- T checksums may be stored when 1 ≤ T ≤ MAX_N (R166). -/
theorem storeChecksums (hs : BlockInv s) {k : OutKind} (hk : k ≠ .nothing) {cs : List Byte}
    (hlen : cs.length = s.target.toNat) (hpos : 1 ≤ s.target.toNat) (hle : s.target.toNat ≤ maxN) :
    BlockInv (s.storeChecksums k cs) :=
  { hs with
    outputs_some := fun _ => ⟨hpos, hle⟩
    outputs_none := fun h => absurd h hk
    ck_wf := Cells.wf_setFrom cs _ 0 hs.ck_wf
    ck_within := Cells.within_setFrom cs _ 0 (by omega) hs.ck_within }

/-- As many words may be stored as WD has elements (R183). -/
theorem storeWords (hs : BlockInv s) {cs : List Byte} (hlen : cs.length ≤ maxN) : BlockInv (s.storeWords cs) :=
  { hs with
    wd_wf := Cells.wf_setFrom _ _ 0 hs.wd_wf
    wd_within := Cells.within_setFrom _ _ 0 (by rw [List.length_map]; omega) hs.wd_within }

/-- An entry is added only to an open load, and EXCESS is set only when all 256 are written (R39, R122). -/
theorem addEntry (hs : BlockInv s) (hl : s.tblLoading = true) : BlockInv s.addEntry := by
  have hv : s.tblValid ≠ true := by simp [hs.loading_not_valid hl]
  obtain ⟨hc, e⟩ | ⟨hc, e⟩ := State.addEntry_cases s <;> rw [e]
  · exact { hs with
      count_le := hc
      excess_full := fun h => absurd (hs.excess_full h) hc.ne
      valid_full := fun h => absurd h hv }
  · exact { hs with
      excess_full := fun _ => hs.count_le.antisymm hc
      valid_full := fun h => absurd h hv }

/-! ### The commands -/

theorem pushb_keeps (hs : BlockInv s) {b : Byte} (h : exec (.pushb b) s = .next t) : BlockInv t := by
  cases hf : s.inFault with
  | badDigest =>
    obtain rfl := eq_of_exec h (exec_pushb_badDigest b hf)
    exact hs.finish _
  | overflow =>
    obtain rfl := eq_of_exec h (exec_pushb_overflow b hf)
    exact hs.finish _
  | none =>
    cases hp : s.hexPend with
    | true =>
      obtain rfl := eq_of_exec h (exec_pushb_inPair b hf hp)
      exact hs.mark_badDigest.finish _
    | false =>
      obtain rfl := eq_of_exec h (exec_pushb_append b hf hp)
      exact hs.append b hf hp

theorem pushhex_keeps (hs : BlockInv s) {c : Byte} (h : exec (.pushhex c) s = .next t) : BlockInv t := by
  cases hf : s.inFault with
  | badDigest =>
    obtain rfl := eq_of_exec h (exec_pushhex_badDigest c hf)
    exact hs.finish _
  | overflow =>
    obtain rfl := eq_of_exec h (exec_pushhex_overflow c hf)
    exact hs.finish _
  | none =>
    cases hc : hexval c with
    | none =>
      obtain rfl := eq_of_exec h (exec_pushhex_nonHex hf hc)
      exact hs.mark_badDigest.finish _
    | some v =>
      cases hp : s.hexPend with
      | false =>
        obtain rfl := eq_of_exec h (exec_pushhex_first hf hc hp)
        exact { hs with overflow_full := fun h => nomatch hf.symm.trans h }
      | true =>
        obtain rfl := eq_of_exec h (exec_pushhex_second hf hc hp)
        exact hs.end_pair.append _ hf rfl

/-- A ready input gives T checksums, 1 ≤ T ≤ MAX_N (R147, R165). -/
theorem store_of_ready (hs : BlockInv s) (he : inputError s = none) {k : OutKind} (hk : k ≠ .nothing) :
    BlockInv (s.storeChecksums k s.checksums) ∧ s.checksums.length ≤ maxN := by
  obtain ⟨-, -, hpos, hle⟩ := (inputError_eq_none s).1 he
  have hlen : s.checksums.length = s.target.toNat := s.length_checksums
  have hmax : s.target.toNat ≤ maxN := hle.trans hs.inCount_le
  exact ⟨hs.storeChecksums hk hlen hpos hmax, hlen.trans_le hmax⟩

theorem compress_keeps (hs : BlockInv s) (h : exec .compress s = .next t) : BlockInv t := by
  obtain ⟨e, -, rfl⟩ | ⟨he, rfl⟩ := exec_compress_cases h
  · exact hs.finish e
  · obtain ⟨hck, -⟩ := hs.store_of_ready he (k := .checksums) nofun
    exact hck.finish _

theorem humanize_keeps (hs : BlockInv s) (h : exec .humanize s = .next t) : BlockInv t := by
  obtain ⟨e, -, rfl⟩ | ⟨-, he, rfl⟩ := exec_humanize_cases h
  · exact hs.finish e
  · obtain ⟨hck, hlen⟩ := hs.store_of_ready he (k := .words) nofun
    exact (hck.storeWords hlen).finish _

theorem lookup_keeps (hs : BlockInv s) {b : Byte} (h : exec (.lookup b) s = .next t) : BlockInv t := by
  obtain hv | hv := Bool.eq_false_or_eq_true s.tblValid
  · obtain rfl := eq_of_exec h (exec_lookup_valid hv b)
    exact { hs with }
  · obtain rfl := eq_of_exec h (exec_lookup_notConfigured hv b)
    exact hs.finish _

theorem tblWrite_keeps (hs : BlockInv s) (h : exec .tblWrite s = .next t) : BlockInv t := by
  obtain hl | hl := Bool.eq_false_or_eq_true s.tblLoading
  · have ha : exec .tblWrite s = .next s.addEntry.done := congrArg Host.Outcome.next (if_pos hl)
    obtain rfl := eq_of_exec h ha
    exact (hs.addEntry hl).finish _
  · obtain rfl := eq_of_exec h (exec_tblWrite_closed hl)
    exact hs.finish _

/-- A TBL_END makes the table valid only when it is full (R123). -/
theorem tblEnd_keeps (hs : BlockInv s) (h : exec .tblEnd s = .next t) : BlockInv t := by
  obtain hl | hl := Bool.eq_false_or_eq_true s.tblLoading
  · by_cases hc : s.count = 256 ∧ s.excess = false
    · obtain rfl := eq_of_exec h (exec_tblEnd_exact hl hc)
      exact { hs with loading_not_valid := nofun, valid_full := fun _ => hc }
    · obtain rfl := eq_of_exec h (exec_tblEnd_wrong hl hc)
      exact { hs with loading_not_valid := nofun, valid_full := nofun }
  · obtain rfl := eq_of_exec h (exec_tblEnd_closed hl)
    exact hs.finish _

/-- Every command keeps the invariant (10_state.md section 4). -/
theorem exec_keeps (hs : BlockInv s) {i : Instr} (h : exec i s = .next t) : BlockInv t := by
  cases i
  case pushb b => exact hs.pushb_keeps h
  case pushhex c => exact hs.pushhex_keeps h
  case compress => exact hs.compress_keeps h
  case humanize => exact hs.humanize_keeps h
  case lookup b => exact hs.lookup_keeps h
  case tblWrite => exact hs.tblWrite_keeps h
  case tblEnd => exact hs.tblEnd_keeps h
  all_goals obtain rfl := Host.Outcome.next.inj h
  case nop => exact hs.finish _
  case clrerr => exact { hs with }
  case clrin => exact { hs with inCount_le := Nat.zero_le _, overflow_full := nofun }
  case tblBegin =>
    exact { hs with
      loading_not_valid := fun _ => rfl
      count_le := Nat.zero_le _
      excess_full := nofun
      valid_full := nofun }
  case tblDefault =>
    exact { hs with
      loading_not_valid := nofun
      count_le := le_refl _
      excess_full := nofun
      valid_full := fun _ => ⟨rfl, rfl⟩ }

/-! ### The moves -/

/-- Performing any word keeps the invariant: a command's, or an illegal one, which writes ERRCODE only (R202). -/
theorem perform_keeps (hs : BlockInv s) {w : Word} (h : perform w s = .next t) : BlockInv t := by
  unfold perform at h
  split at h
  · exact hs.exec_keeps h
  · obtain rfl := Host.Outcome.next.inj h
    exact hs.finish _

theorem engineMove_keeps (hs : BlockInv s) (h : engineMove s = .next t) : BlockInv t := by
  obtain ⟨-, rfl⟩ | ⟨w, u, -, hu, rfl⟩ := engineMove_cases h
  · exact hs
  · exact { hs.perform_keeps hu with }

/-- A register access writes no field the invariant speaks of (R76, R80). -/
theorem hostAccess_keeps (hs : BlockInv s) (r : Reg) (op : BusOp) : BlockInv (hostAccess r op s) := by
  cases op with
  | read =>
    rw [hostAccess, hostRead_frame]
    exact { hs with }
  | write v =>
    rw [hostAccess]
    obtain h | ⟨-, h⟩ | ⟨-, h | h | h | h⟩ := regWrite_cases r v s <;> rw [h] <;> exact { hs with }

theorem hostMove_keeps (hs : BlockInv s) (h : hostMove s = .next t) : BlockInv t := by
  obtain ⟨-, rfl⟩ | ⟨rest, -, rfl⟩ | ⟨-, -, r, op, p, -, -, -, rfl⟩ := hostMove_cases h
  · exact hs
  · exact { resetSatisfiesTheInvariant with }
  · have hprog : BlockInv { s with program := p } := { hs with }
    exact hprog.hostAccess_keeps r op

end BlockInv

/-! ### Who moves -/

/-- What a step can be: but for the record of turns, a move of the engine, or of a host that can move; with neither able,
`noMove` (R82). -/
theorem step_cases (s : State) :
    (∃ x, x = { s with turns := x.turns, waited := x.waited, engineTurns := x.engineTurns } ∧
      ((∃ w, s.pend = some w ∧ step s = engineMove x) ∨ (hostReady s = true ∧ step s = hostMove x))) ∨
    (s.pend = none ∧ hostReady s = false ∧ step s = noMove s) := by
  obtain hp | ⟨w, hp⟩ := Option.eq_none_or_eq_some s.pend
  · cases hh : hostReady s with
    | true => exact .inl ⟨s, rfl, .inr ⟨rfl, step_host hp hh⟩⟩
    | false => exact .inr ⟨hp, rfl, step_eq_noMove hp hh⟩
  · obtain ⟨x, hx, he | ⟨hh, -, he⟩⟩ := step_pending_cases hp
    · exact .inl ⟨x, hx, .inl ⟨w, hp, he⟩⟩
    · exact .inl ⟨x, hx, .inr ⟨hh, he⟩⟩

/-- A host that cannot move has no statement left, or is at an access not admitted by R71 (R72). -/
theorem program_of_not_hostReady {s : State} (hh : hostReady s = false) :
    s.program = [] ∨ ∃ a rest, s.program = .bus a :: rest ∧ ¬admitted a = true := by
  unfold hostReady at hh
  split at hh
  · next hp => exact .inl hp
  · next a rest hp =>
    refine .inr ⟨a, rest, hp, fun ha => ?_⟩
    obtain ⟨r, hr⟩ := exists_accessReg ha
    rw [hr] at hh
    cases hh
  · cases hh

/-- Settles O13: the move of the step keeps the invariant, whichever agent makes it (`BlockInv.engineMove_keeps`,
`BlockInv.hostMove_keeps`). -/
theorem stepKeepsTheInvariant : Obligations.StepKeepsTheInvariant := by
  unfold Obligations.StepKeepsTheInvariant
  intro s t hs h
  obtain ⟨x, hx, hmove⟩ | ⟨-, -, he⟩ := step_cases s
  · have hxs : BlockInv x := hx ▸ hs.with_schedule x.turns x.waited x.engineTurns
    obtain ⟨w, -, he⟩ | ⟨-, he⟩ := hmove
    · exact hxs.engineMove_keeps (he.symm.trans h)
    · exact hxs.hostMove_keeps (he.symm.trans h)
  · have hn : noMove s = .next t := he.symm.trans h
    unfold noMove at hn
    split at hn
    · obtain rfl := Host.Outcome.next.inj hn
      exact hs
    · cases hn

/-- Settles O14: `exec_eq_next` for the commands; a move of either agent completes, and a step without a move faults at an
access that `program_of_not_hostReady` names. -/
theorem onlyNonAdmittedAccessStopsTheMachine : Obligations.OnlyNonAdmittedAccessStopsTheMachine := by
  unfold Obligations.OnlyNonAdmittedAccessStopsTheMachine
  refine ⟨fun i s => ⟨_, exec_eq_next i s⟩, fun s => ?_⟩
  obtain ⟨x, hx, ⟨w, hp, he⟩ | ⟨hh, he⟩⟩ | ⟨hp, hh, he⟩ := step_cases s
  · obtain ⟨t, -, ht, -⟩ := engineMove_pending ((congrArg State.pend hx).trans hp)
    exact .inl ⟨_, he.trans ht⟩
  · obtain ⟨t, ht⟩ := exists_hostMove ((congrArg hostReady hx).trans hh)
    exact .inl ⟨t, he.trans ht⟩
  · rw [he]
    obtain hprog | ⟨a, rest, hprog, ha⟩ := program_of_not_hostReady hh
    · exact .inl ⟨s, by rw [noMove, hprog]⟩
    · exact .inr ⟨by rw [noMove, hprog], hp, a, rest, hprog, mt admitted_iff.2 ha⟩

/-- Settles O8: the step in each case, and `noMove` once the run is over. -/
theorem stepIsOneMoveOfHostOrEngine : Obligations.StepIsOneMoveOfHostOrEngine := by
  unfold Obligations.StepIsOneMoveOfHostOrEngine
  intro s
  refine ⟨step_host, fun w => step_eq_engineMove, fun w ts => step_turn, fun w ts => step_turn,
    fun w => step_turns_nil, fun ⟨hprog, hp⟩ => ?_⟩
  have hh : hostReady s = false := by rw [hostReady, hprog]
  rw [step_eq_noMove hp hh, noMove, hprog]

/-- The word of a command has 32 bits, so `withFetchWord` places it whole (log entry 8). -/
theorem withFetchWord_encode (s : State) (i : Instr) :
    s.withFetchWord 32 (encode i).toNat = placeCommand (encode i) s := by
  rw [State.withFetchWord, Nat.mod_eq_of_lt (encode i).isLt, BitVec.ofNat_toNat, BitVec.setWidth_eq]

/-- Settles O7: the placed word is pending, and the engine moves: because the host cannot, or because it has the turn. -/
theorem fetchedWordIsPerformedNext : Obligations.FetchedWordIsPerformedNext := by
  unfold Obligations.FetchedWordIsPerformedNext
  intro s t i h
  rw [withFetchWord_encode]
  obtain ⟨halone, hturn, -⟩ :=
    stepPerformsThePendingCommand (placeCommand (encode i) s) t (encode i) i rfl (decode_encode i)
  cases hh : hostReady s with
  | false =>
    have hplace : placeCommand (encode i) s = { s with pend := some (encode i) } := by simp [placeCommand, hh]
    exact halone hh (hplace ▸ h)
  | true => exact hturn s.turns hh (if_pos hh) h

/-- The host's move at `wr` is the write (R107). -/
theorem hostMove_wr {s : State} {r : Reg} {v : Word} {rest : List HostStmt} (hprog : s.program = .wr r v :: rest) :
    hostMove s = .next (regWrite r v { s with program := rest }) := by
  simp only [hostMove, hprog]

/-- Performing a word leaves TARGET as it is (R38). -/
theorem perform_target {w : Word} {s t : State} (h : perform w s = .next t) : t.target = s.target := by
  obtain ⟨u, hu, -, -, -, -, -, -, -, htarget, -⟩ := perform_eq_next w s
  obtain rfl := Host.Outcome.next.inj (hu.symm.trans h)
  exact htarget

/-- Settles O9: while the command is pending the write is dropped (`regWrite_busy`); the engine's move keeps TARGET and the
host's program (`perform_target`, `engineMove_pending`), and then the write finds PEND empty. -/
theorem targetWriteRacesThePendingCommand : Obligations.TargetWriteRacesThePendingCommand := by
  unfold Obligations.TargetWriteRacesThePendingCommand
  intro s w v rest hp hprog
  have hh : hostReady s = true := by rw [hostReady, hprog]
  refine ⟨fun ts hts => ?host, fun ts hts => ?engine⟩
  case host =>
    have hb : ({ s with turns := ts, program := rest } : State).busy = true := State.busy_of_pend hp
    have hmove : hostMove { s with turns := ts } = .next (regWrite .target v { s with turns := ts, program := rest }) :=
      hostMove_wr hprog
    rw [regWrite_busy v hb rfl] at hmove
    exact (step_turn hp hh hts).trans hmove
  case engine =>
    obtain ⟨t, ht, hmove, htprog, -⟩ := engineMove_pending (s := { s with turns := ts }) hp
    have htp : ({ t with pend := none } : State).program = .wr .target v :: rest := htprog.trans hprog
    have hready : hostReady { t with pend := none } = true := by rw [hostReady, htp]
    have hstep := (step_host rfl hready).trans (hostMove_wr htp)
    exact ⟨t, _, ht, (step_turn hp hh hts).trans hmove, (perform_target ht :), hstep, rfl⟩

/-! ### Reset -/

/-- Settles O10: every clause by evaluation of the reset state. -/
theorem resetStateHoldsTheResetValues : Obligations.ResetStateHoldsTheResetValues := by
  unfold Obligations.ResetStateHoldsTheResetValues
  exact ⟨rfl, rfl, rfl, rfl, rfl, rfl, rfl, rfl, rfl, rfl, rfl, rfl, rfl, rfl, rfl, rfl, rfl, fun _ _ => rfl, by decide,
    by decide, rfl, fun _ => ⟨rfl, rfl, rfl⟩⟩

end Sys2Proof.Machine
